-- ==== Sys2Proof/Config.lean ====
section
/-! DEFINITION. Config.lean: what an implementation of the block fixes (00_scope.md R8), and the free
values that stand for state the spec leaves unspecified (10_state.md R40). -/

namespace Sys2Proof

/-- `clog2(n)`: the least `k` with `2^k >= n` (00_scope.md R11; `Sys2Proof.Laws.clog2_least`). -/
def clog2 (n : Nat) : Nat := if n ≤ 1 then 0 else Nat.log2 (n - 1) + 1

/-- The static parameters of a block (00_scope.md R8; 93_implementation_defined.md U17). They size the
hardware and do not change at run time. `Sizes.wf` says which are allowed. -/
structure Sizes where
  /-- `TICK_W`: width of timestamps, deadlines and time parameters. -/
  tickW : Nat
  /-- `MAX_ROWS`: row-drive outputs built. -/
  maxRows : Nat
  /-- `MAX_COLS`: column-sense inputs built. -/
  maxCols : Nat
  /-- `MAX_Q`: slots in the queue buffer. -/
  maxQ : Nat
  deriving DecidableEq, Repr

namespace Sizes

/-- The defaults of 00_scope.md R8. -/
def defaults : Sizes where
  tickW := 32
  maxRows := 16
  maxCols := 16
  maxQ := 64

/-! ## Derived sizes and widths (00_scope.md R8) -/

/-- `MAX_CELLS`: cells in the cell table. -/
def maxCells (z : Sizes) : Nat := z.maxRows * z.maxCols

/-- `IDX_W`: width of a flattened key index. -/
def idxW (z : Sizes) : Nat := max 1 (clog2 z.maxCells)

/-- `ACT_W`: width of an action word. -/
abbrev actW (z : Sizes) : Nat := z.idxW + 3

/-- `QIDX_W`: width of a queue index. -/
def qidxW (z : Sizes) : Nat := max 1 (clog2 z.maxQ)

/-- `ROW_W`: width of `ROWS`. -/
def rowW (z : Sizes) : Nat := clog2 (z.maxRows + 1)

/-- `COL_W`: width of `COLS`. -/
def colW (z : Sizes) : Nat := clog2 (z.maxCols + 1)

/-- `LEN_W`: width of a map length. -/
def lenW (z : Sizes) : Nat := clog2 (z.maxCells + 1)

/-- `QCAP_W`: width of `QCAP`. -/
def qcapW (z : Sizes) : Nat := clog2 (z.maxQ + 1)

/-- `CNT_W`: width of the per-scan overflow count. -/
def cntW (z : Sizes) : Nat := clog2 (z.maxCells + 1)

end Sizes

namespace Config

/-- `CHAR_W`: width of a key-map character, fixed at 8 in MKSE-1 (00_scope.md R8). -/
abbrev charW : Nat := 8

/-! ## Free values -/

/-- The `w`-bit value that element `k` of the item `item` of the machine's unspecified state holds after the
`n`-th event that leaves state unspecified (10_state.md R40, 44_configure.md R193; 93_implementation_defined.md
U1: `any value`). It has no body, so nothing can be proved of its value (log 3). -/
opaque freeBits (w n item k : Nat) : BitVec w

end Config

end Sys2Proof
end

