-- ==== Sys2Proof/Word.lean ====
section
/-! DEFINITION. Word.lean: the word types of a block of given sizes, at the widths of 00_scope.md R8. -/

namespace Sys2Proof

/-- A timestamp, deadline or time parameter: `TICK_W` bits, unsigned milliseconds (30_encoding.md R80). -/
abbrev Tick (z : Sizes) : Type := BitVec z.tickW

/-- A key-map character, a raw 8-bit code (00_scope.md R11). -/
abbrev KeyChar : Type := BitVec Config.charW

/-- A flattened key index (20_memory.md R51). -/
abbrev KeyIndex (z : Sizes) : Type := BitVec z.idxW

/-- An action word, laid out by 30_encoding.md R72. -/
abbrev ActWord (z : Sizes) : Type := BitVec z.actW

/-- A queue index (10_state.md R31). -/
abbrev QIndex (z : Sizes) : Type := BitVec z.qidxW

/-- The per-scan overflow count (41_scan.md R131). -/
abbrev FullCount (z : Sizes) : Type := BitVec z.cntW

end Sys2Proof
end

