-- ==== Sys2Proof/Syntax.lean ====
section
/-! DEFINITION. Syntax.lean: the commands of MKSE-1 (30_encoding.md R77) and the names that the
formats of 30_encoding.md and 10_state.md encode. -/

namespace Sys2Proof

/-- The command set MKSE-1, one constructor for each row of spec/opcode_table.json (30_encoding.md R77). -/
inductive Instr where
  /-- `NOP`, opcode 0x0 (44_configure.md R195). -/
  | nop
  /-- `CONFIGURE`, opcode 0x1 (44_configure.md R190); its operands are the configuration inputs of R75. -/
  | configure
  /-- `SCAN now`, opcode 0x2 (41_scan.md R125); `now` is `cmd_now`, the one operand a command carries, as an
  unsigned number. A block takes its `TICK_W` low bits, `cmd_now[TICK_W-1:0]` (30_encoding.md R80). -/
  | scan (now : Nat)
  /-- `SCAN_TICK`, opcode 0x3 (41_scan.md R132); its timestamp is the tick input. -/
  | scanTick
  /-- `NEXT_KEY`, opcode 0x4 (43_shift.md R175). -/
  | nextKey
  /-- `NEXT_ACTION`, opcode 0x5 (42_queue.md R144). -/
  | nextAction
  /-- `QUEUE_CLEAR`, opcode 0x6 (42_queue.md R145). -/
  | queueClear
  deriving DecidableEq, Repr

/-- Command format `CMD`: the pair captured when a block accepts a command (30_encoding.md R71). -/
structure Cmd (z : Sizes) where
  /-- `cmd_op[3:0]`. -/
  op : BitVec 4
  /-- `cmd_now[TICK_W-1:0]`, read by `SCAN` only. -/
  now : Tick z
  deriving DecidableEq, Repr

/-- The kind of an action (30_encoding.md R72). -/
inductive Kind where
  /-- Press. -/
  | press
  /-- Release. -/
  | release
  /-- Repeat. -/
  | repeated
  deriving DecidableEq, Repr

/-- The five states of a cell (10_state.md R27). -/
inductive CellState where
  /-- Released. -/
  | released
  /-- PressDebounce (PD). -/
  | pressDebounce
  /-- Pressed. -/
  | pressed
  /-- Repeating. -/
  | repeating
  /-- ReleaseDebounce (RD). -/
  | releaseDebounce
  deriving DecidableEq, Repr

/-- The four shift policies (10_state.md R24). -/
inductive Policy where
  /-- Off: no shift key. -/
  | off
  /-- OneShot: the latch shifts one key. -/
  | oneShot
  /-- Lock: the latch toggles. -/
  | lock
  /-- Hold: the latch follows the shift key. -/
  | hold
  deriving DecidableEq, Repr

/-- The response statuses (30_encoding.md R73). -/
inductive Status where
  /-- The command completed and produced its result. -/
  | ok
  /-- The command completed with no result. -/
  | none
  /-- Refused because `READY = 0`. -/
  | notReady
  /-- Reserved opcode. -/
  | illegalOp
  /-- `CONFIGURE` rejected the configuration. -/
  | cfgErr
  deriving DecidableEq, Repr

/-- The tests of `CHECK()` by name (44_configure.md R191). -/
inductive CfgError where
  /-- `BAD_ROWS`, code 1. -/
  | badRows
  /-- `BAD_COLS`, code 2. -/
  | badCols
  /-- `UMAP_SHORT`, code 3. -/
  | umapShort
  /-- `SMAP_SHORT`, code 4. -/
  | smapShort
  /-- `BAD_QCAP`, code 5. -/
  | badQcap
  /-- `BAD_TIME`, code 6. -/
  | badTime
  /-- `NO_SHIFT_KEY`, code 7. -/
  | noShiftKey
  /-- `NO_SMAP`, code 8. -/
  | noSmap
  deriving DecidableEq, Repr

/-- Why the decoder refuses a command. -/
inductive DecodeError where
  /-- `cmd_op` is one of the reserved opcodes 0x7 to 0xF (30_encoding.md R78). -/
  | reservedOpcode (op : BitVec 4)
  deriving DecidableEq, Repr

end Sys2Proof
end

