-- ==== Sys2Proof/WellFormed.lean ====
section
/-! DEFINITION. WellFormed.lean: which sizes of a block are allowed (00_scope.md R8), and which terms of
the formats are legal (30_encoding.md R71, R72, R78, R82; 10_state.md R27). -/

namespace Sys2Proof

/-- The constraints of 00_scope.md R8 on the static parameters. -/
def Sizes.wf (z : Sizes) : Bool :=
  decide (4 ≤ z.tickW ∧ 1 ≤ z.maxRows ∧ 1 ≤ z.maxCols ∧ 2 ≤ z.maxQ)

/-- A command is legal at given sizes when its operand fits `cmd_now`; within an opcode no bit pattern is
reserved (30_encoding.md R71, R78). There is an arm for each command so that a new one has to answer. -/
def Instr.wf (z : Sizes) : Instr → Bool
  | .nop => true
  | .configure => true
  | .scan now => decide (now < 2 ^ z.tickW)
  | .scanTick => true
  | .nextKey => true
  | .nextAction => true
  | .queueClear => true

/-- A command pair is legal when its opcode is none of 0x7 to 0xF (30_encoding.md R78). -/
def Cmd.wf {z : Sizes} (c : Cmd z) : Bool := decide (c.op.toNat < 7)

/-- A kind field is legal when it is not `0b11` (30_encoding.md R72, R82). -/
def kindBitsWf (k : BitVec 2) : Bool := k != 3#2

/-- A cell-state code is legal when it is none of 5 to 7 (10_state.md R27). -/
def cellStateBitsWf (st : BitVec 3) : Bool := decide (st.toNat < 5)

/-- A status code is legal when it is none of 5 to 7 (30_encoding.md R73). -/
def statusBitsWf (st : BitVec 3) : Bool := decide (st.toNat < 5)

/-- A `CFG_ERR` code is legal when it is none of 9 to 15 (44_configure.md R191). -/
def cfgErrBitsWf (e : BitVec 4) : Bool := decide (e.toNat < 9)

end Sys2Proof
end

