-- ==== Sys2Proof/Decode.lean ====
section
/-! DEFINITION. Decode.lean: the encodings of 30_encoding.md, read and written: command pairs (R71,
R77, R78), action words (R72), status codes (R73), cell-state codes and policy codes (10_state.md
R27, R24), `CONFIGURE` result codes (44_configure.md R191). -/

namespace Sys2Proof

variable {z : Sizes}

/-! ## Commands -/

/-- The opcode map (30_encoding.md R77): `cmd_op` alone selects the command. Opcodes 0x7 to 0xF are
refused by name (R78). `cmd_now` is read for `SCAN` only (R71, R80). -/
def decode (c : Cmd z) : Except DecodeError Instr :=
  match c.op.toNat with
  | 0 => .ok .nop
  | 1 => .ok .configure
  | 2 => .ok (.scan c.now.toNat)
  | 3 => .ok .scanTick
  | 4 => .ok .nextKey
  | 5 => .ok .nextAction
  | 6 => .ok .queueClear
  | _ => .error (.reservedOpcode c.op)

/-- The command pair of a command at given sizes (30_encoding.md R77, R83). A command that ignores `cmd_now` (R71)
is written with 0 there. -/
def encode (z : Sizes) : Instr → Cmd z
  | .nop => ⟨0x0#4, 0⟩
  | .configure => ⟨0x1#4, 0⟩
  | .scan now => ⟨0x2#4, BitVec.ofNat z.tickW now⟩
  | .scanTick => ⟨0x3#4, 0⟩
  | .nextKey => ⟨0x4#4, 0⟩
  | .nextAction => ⟨0x5#4, 0⟩
  | .queueClear => ⟨0x6#4, 0⟩

/-- A command pair read from one number: bits 3:0 are `cmd_op`, the `TICK_W` bits above are `cmd_now`.
The two are parallel wires (30_encoding.md R71), so their place beside each other is a DESIGN CHOICE (log 6). -/
def cmdOfWord (z : Sizes) (w : Nat) : Cmd z := ⟨BitVec.ofNat 4 w, BitVec.ofNat z.tickW (w / 2 ^ 4)⟩

/-- The number `cmdOfWord` reads a command pair from (log 6). -/
def wordOfCmd (c : Cmd z) : Nat := c.now.toNat * 2 ^ 4 + c.op.toNat

/-- The instruction the decoder reads from the `nbits` low bits of `w`, every bit above being 0, at the
default sizes. -/
def decodeTableWord (nbits w : Nat) : Option Instr :=
  (decode (cmdOfWord Sizes.defaults (w % 2 ^ nbits))).toOption

/-! ## Action words (30_encoding.md R72) -/

/-- `kind` codes: Press 00, Release 01, Repeat 10. -/
def Kind.code : Kind → BitVec 2
  | .press => 0b00#2
  | .release => 0b01#2
  | .repeated => 0b10#2

/-- Reads a `kind` field; `0b11` is reserved (30_encoding.md R82). -/
def Kind.ofCode? (k : BitVec 2) : Option Kind :=
  match k.toNat with
  | 0 => some .press
  | 1 => some .release
  | 2 => some .repeated
  | _ => none

/-- The action word `{index, shift, kind}`. -/
def packAction (i : KeyIndex z) (shift : Bool) (k : Kind) : ActWord z := i ++ BitVec.ofBool shift ++ k.code

/-- `index = a[ACT_W-1:3]`. -/
def actIndex (a : ActWord z) : KeyIndex z := a.extractLsb' 3 z.idxW

/-- `shift = a[2]`. -/
def actShift (a : ActWord z) : Bool := a.getLsbD 2

/-- `kind = a[1:0]`, as bits. -/
def actKindBits (a : ActWord z) : BitVec 2 := a.extractLsb' 0 2

/-- `kind = a[1:0]`, by name. -/
def actKind? (a : ActWord z) : Option Kind := Kind.ofCode? (actKindBits a)

/-! ## Cell states (10_state.md R27) -/

/-- The code of a cell state, in the document's order. -/
def CellState.code : CellState → BitVec 3
  | .released => 0#3
  | .pressDebounce => 1#3
  | .pressed => 2#3
  | .repeating => 3#3
  | .releaseDebounce => 4#3

/-- Reads a `CELL_ST` value; 5, 6 and 7 stand for no state. -/
def CellState.ofCode? (st : BitVec 3) : Option CellState :=
  match st.toNat with
  | 0 => some .released
  | 1 => some .pressDebounce
  | 2 => some .pressed
  | 3 => some .repeating
  | 4 => some .releaseDebounce
  | _ => none

/-! ## Policies (10_state.md R24) -/

/-- The code of a policy. -/
def Policy.code : Policy → BitVec 2
  | .off => 0#2
  | .oneShot => 1#2
  | .lock => 2#2
  | .hold => 3#2

/-- Reads `POLICY`; all four values are legal. -/
def Policy.ofCode (p : BitVec 2) : Policy :=
  match p.toNat with
  | 0 => .off
  | 1 => .oneShot
  | 2 => .lock
  | _ => .hold

/-! ## Result codes -/

/-- `rsp_status` codes (30_encoding.md R73). -/
def Status.code : Status → BitVec 3
  | .ok => 0#3
  | .none => 1#3
  | .notReady => 2#3
  | .illegalOp => 3#3
  | .cfgErr => 4#3

/-- `CONFIGURE` result codes (44_configure.md R191). -/
def CfgError.code : CfgError → BitVec 4
  | .badRows => 1#4
  | .badCols => 2#4
  | .umapShort => 3#4
  | .smapShort => 4#4
  | .badQcap => 5#4
  | .badTime => 6#4
  | .noShiftKey => 7#4
  | .noSmap => 8#4

end Sys2Proof
end

