-- ==== Sys2Proof/Machine/State.lean ====
section
/-! DEFINITION. Machine/State.lean: everything the spec gives the block to hold (10_state.md R20), the
values at its ports (30_encoding.md R70), the reasons a step can stop, and the state after power-on
reset (10_state.md R40). -/

namespace Sys2Proof.Machine

/-! ## Registers -/

/-- The configuration registers (10_state.md R24). Only a successful `CONFIGURE` loads them. -/
structure ConfigRegs (z : Sizes) where
  /-- `ROWS`: rows in use. -/
  rows : BitVec z.rowW
  /-- `COLS`: columns in use. -/
  cols : BitVec z.colW
  /-- `UMAP`: unshifted key map. -/
  umap : Vector KeyChar z.maxCells
  /-- `SMAP_PRESENT`. -/
  smapPresent : Bool
  /-- `SMAP`: shifted key map. -/
  smap : Vector KeyChar z.maxCells
  /-- `SHIFT_PRESENT`. -/
  shiftPresent : Bool
  /-- `SHIFT_CHAR`. -/
  shiftChar : KeyChar
  /-- `IND_PRESENT`. -/
  indPresent : Bool
  /-- `POLICY`, read by `Policy.ofCode`. -/
  policy : BitVec 2
  /-- `DEBOUNCE` in ms. -/
  debounce : Tick z
  /-- `RDELAY` in ms. -/
  rdelay : Tick z
  /-- `RTIME` in ms. -/
  rtime : Tick z
  /-- `QCAP`: queue capacity. -/
  qcap : BitVec z.qcapW
  deriving DecidableEq, Repr

/-- One element of the cell table, accessed as a pair (20_memory.md R55). -/
structure Cell (z : Sizes) where
  /-- `CELL_ST[i]` (10_state.md R27), read by `CellState.ofCode?`. -/
  st : BitVec 3
  /-- `CELL_NEXT[i]` (10_state.md R28). -/
  next : Tick z
  deriving DecidableEq, Repr

/-- The action queue (10_state.md R31). -/
structure Queue (z : Sizes) where
  /-- `QBUF`. -/
  buf : Vector (ActWord z) z.maxQ
  /-- `QIN`, the document's `in`. -/
  qin : QIndex z
  /-- `QOUT`, the document's `out`. -/
  qout : QIndex z
  deriving DecidableEq, Repr

/-! ## Ports -/

/-- The configuration inputs (30_encoding.md R75), sampled by `CONFIGURE` alone. -/
structure CfgInputs (z : Sizes) where
  /-- `cfg_rows`. -/
  rows : BitVec z.rowW
  /-- `cfg_cols`. -/
  cols : BitVec z.colW
  /-- `cfg_umap_len`, checked only. -/
  umapLen : BitVec z.lenW
  /-- `cfg_umap`. -/
  umap : Vector KeyChar z.maxCells
  /-- `cfg_smap_present`. -/
  smapPresent : Bool
  /-- `cfg_smap_len`, checked only. -/
  smapLen : BitVec z.lenW
  /-- `cfg_smap`. -/
  smap : Vector KeyChar z.maxCells
  /-- `cfg_shift_present`. -/
  shiftPresent : Bool
  /-- `cfg_shift_char`. -/
  shiftChar : KeyChar
  /-- `cfg_ind_present`. -/
  indPresent : Bool
  /-- `cfg_policy`. -/
  policy : BitVec 2
  /-- `cfg_debounce`. -/
  debounce : Tick z
  /-- `cfg_rdelay`. -/
  rdelay : Tick z
  /-- `cfg_rtime`. -/
  rtime : Tick z
  /-- `cfg_qcap`. -/
  qcap : BitVec z.qcapW
  deriving DecidableEq, Repr

/-- What stands at the input ports (30_encoding.md R70) when a step begins: the host's part (`rst_n`,
the command, the configuration inputs) and the environment's draws for this step (the tick, the
readings; 41_scan.md R130). DESIGN CHOICE (log 4): the outside world is data of the state. -/
structure Pins (z : Sizes) where
  /-- `rst_n`, active low (70_reset_and_hazards.md R235). -/
  rstN : Bool
  /-- `cmd_valid`. -/
  cmdValid : Bool
  /-- `cmd_op` and `cmd_now`. -/
  cmd : Cmd z
  /-- `tick_in`. -/
  tickIn : Tick z
  /-- The samples of `col_pressed`: element `r` is its value while row `r` is active, bit `c` the
  reading of column `c`. -/
  colPressed : Vector (BitVec z.maxCols) z.maxRows
  /-- The configuration inputs. -/
  cfg : CfgInputs z
  deriving DecidableEq, Repr

/-- The response outputs while `rsp_valid = 1` (30_encoding.md R70, R74). -/
structure Response (z : Sizes) where
  /-- `rsp_status`, written by `Status.code`. -/
  status : BitVec 3
  /-- `rsp_consumed`. -/
  consumed : Bool
  /-- `rsp_char`. -/
  char : KeyChar
  /-- `rsp_action`. -/
  action : ActWord z
  /-- `rsp_put_full_cnt`. -/
  putFullCnt : FullCount z
  /-- `rsp_cfg_err`. -/
  cfgErr : BitVec 4
  deriving DecidableEq, Repr

/-- What a scan does at the ports and at the queue, in the order it does it (41_scan.md R127). -/
inductive Event (z : Sizes) where
  /-- `ROW_ACTIVE[r]` rises or falls. -/
  | row (r : Nat) (active : Bool)
  /-- Column `c` is sampled for row `r` with the row outputs as given; the reading is `pressed`. -/
  | sample (rowActive : BitVec z.maxRows) (r c : Nat) (pressed : Bool)
  /-- `Q_PUT` of `a`, which reports `full`. -/
  | put (a : ActWord z) (full : Bool)
  deriving DecidableEq, Repr

/-! ## The state -/

/-- A block of the given sizes, and what stands at its ports. INVENTORY.md lists each field with its rule. -/
structure Block (z : Sizes) where
  /-- `READY` (10_state.md R23). -/
  ready : Bool
  /-- `CFG_ERR` (10_state.md R26). -/
  cfgErr : BitVec 4
  /-- The configuration registers and key maps (10_state.md R24). -/
  cfg : ConfigRegs z
  /-- The cell table (10_state.md R27, R28). -/
  cells : Vector (Cell z) z.maxCells
  /-- The action queue (10_state.md R31). -/
  queue : Queue z
  /-- `LATCH` (10_state.md R33). -/
  latch : Bool
  /-- `ROW_ACTIVE` (10_state.md R36), bit `r` for row `r`. -/
  rowActive : BitVec z.maxRows
  /-- `SHIFT_IND` (10_state.md R35). -/
  shiftInd : Bool
  /-- The response outputs; `none` is `rsp_valid = 0` (log 8). -/
  rsp : Option (Response z)
  /-- The input ports now (log 4). -/
  pins : Pins z
  /-- The input ports in the steps to come, the model's own field (log 4). -/
  pending : List (Pins z)
  /-- The output trace of the last command, the model's own field (log 9). -/
  trace : List (Event z)
  /-- How often free values were drawn, the model's own field (log 3). -/
  draws : Nat
  deriving DecidableEq, Repr

/-- The machine: a block together with the sizes it is built with, which no step changes (00_scope.md R8;
log 1). Everything the block holds is in `block`, at widths and lengths that `sizes` gives. -/
structure State where
  /-- The static parameters. -/
  sizes : Sizes
  /-- The block. -/
  block : Block sizes
  deriving DecidableEq, Repr

/-! ## Why a step stops

The block raises no fault (60_exceptions.md R210). Each fault below is for a value the block cannot
hold, and no run from reset meets one (log 10). -/

/-- Reasons for a fault. -/
inductive Fault where
  /-- CELL_STEP finds a `CELL_ST` code of 5 to 7 (10_state.md R27; 93_implementation_defined.md U6).
  Raised by `SCAN` and `SCAN_TICK`, with the cell's index. Safe: the block cannot reach it. -/
  | badCellState (i : Nat) (st : BitVec 3)
  /-- An action of kind `0b11` is taken from the queue (30_encoding.md R82; 93_implementation_defined.md U7).
  Raised by `NEXT_KEY` and `NEXT_ACTION`, with the action word. Safe: the block cannot reach it. -/
  | badActionKind (a : Nat)
  /-- A scan finds `ROWS > MAX_ROWS` or `COLS > MAX_COLS`, values that 10_state.md R24 does not allow
  (log 10). Raised by `SCAN` and `SCAN_TICK`. Safe: the block cannot reach it. -/
  | matrixTooLarge
  deriving DecidableEq, Repr

/-- Reasons for a refusal. -/
inductive Refusal where
  /-- The command has no meaning in the model yet. No arm of `exec` raises it. Safe. -/
  | notModelled (mnemonic : String)
  deriving DecidableEq, Repr

/-! ## Reset -/

/-- Configuration registers at power-on: "unspecified" in 10_state.md R40. DESIGN CHOICE zero (log 2), unsafe. -/
def ConfigRegs.reset (z : Sizes) : ConfigRegs z where
  rows := 0
  cols := 0
  umap := Vector.replicate z.maxCells 0
  smapPresent := false
  smap := Vector.replicate z.maxCells 0
  shiftPresent := false
  shiftChar := 0
  indPresent := false
  policy := 0
  debounce := 0
  rdelay := 0
  rtime := 0
  qcap := 0

/-- Configuration inputs of zeros, for a port that nobody drives (log 4). -/
def CfgInputs.idle (z : Sizes) : CfgInputs z where
  rows := 0
  cols := 0
  umapLen := 0
  umap := Vector.replicate z.maxCells 0
  smapPresent := false
  smapLen := 0
  smap := Vector.replicate z.maxCells 0
  shiftPresent := false
  shiftChar := 0
  indPresent := false
  policy := 0
  debounce := 0
  rdelay := 0
  rtime := 0
  qcap := 0

/-- Input ports with reset released, no command and every other input 0 (log 4). -/
def Pins.idle (z : Sizes) : Pins z where
  rstN := true
  cmdValid := false
  cmd := ⟨0, 0⟩
  tickIn := 0
  colPressed := Vector.replicate z.maxRows 0
  cfg := CfgInputs.idle z

/-- A block right after power-on reset: the power-on column of 10_state.md R40
(70_reset_and_hazards.md R235). What is "unspecified" there has the zero of log 2. -/
def Block.reset (z : Sizes) : Block z where
  ready := false
  cfgErr := 0
  cfg := ConfigRegs.reset z
  cells := Vector.replicate z.maxCells ⟨0, 0⟩
  queue := ⟨Vector.replicate z.maxQ 0, 0, 0⟩
  latch := false
  rowActive := 0
  shiftInd := false
  rsp := none
  pins := Pins.idle z
  pending := []
  trace := []
  draws := 0

/-- The machine built with the given sizes, right after power-on reset. -/
def State.resetOf (z : Sizes) : State := ⟨z, Block.reset z⟩

/-- The machine at the default sizes (00_scope.md R8), right after power-on reset. -/
def State.reset : State := State.resetOf Sizes.defaults

end Sys2Proof.Machine
end

