-- ==== Sys2Proof/Machine/Operands.lean ====
section
/-! DEFINITION. Machine/Operands.lean: where each command's operands come from (30_encoding.md R80) and
the arithmetic on them: tick arithmetic (00_scope.md R12, R13), flattened indices (20_memory.md R51),
array elements, readings. -/

namespace Sys2Proof.Machine

variable {z : Sizes}

/-! ## Ticks, at every width -/

/-- `add_T` (00_scope.md R12). -/
def addT {w : Nat} (a b : BitVec w) : BitVec w := a + b

/-- `sub_T` (00_scope.md R12). -/
def subT {w : Nat} (a b : BitVec w) : BitVec w := a - b

/-- The wrap-safe deadline test `due(now, t)` (00_scope.md R13): the difference, read as two's
complement, is not negative. -/
def due {w : Nat} (now t : BitVec w) : Bool := decide (0 ≤ (subT now t).toInt)

/-- The timestamp of `SCAN`: the `TICK_W` low bits of its operand (30_encoding.md R80). -/
def nowOperand (z : Sizes) (now : Nat) : Tick z := BitVec.ofNat z.tickW now

/-- The timestamp of `SCAN_TICK`: `tick_in`, sampled once (41_scan.md R132). -/
def tickOperand (s : Block z) : Tick z := s.pins.tickIn

/-! ## Configuration values -/

/-- `NCELLS` of a configuration (10_state.md R25). -/
def ConfigRegs.ncells (g : ConfigRegs z) : Nat := g.rows.toNat * g.cols.toNat

/-- `POLICY` by name. -/
def ConfigRegs.policyName (g : ConfigRegs z) : Policy := Policy.ofCode g.policy

/-- `NCELLS`. -/
def Block.ncells (s : Block z) : Nat := s.cfg.ncells

/-- `POLICY` by name. -/
def Block.policy (s : Block z) : Policy := s.cfg.policyName

/-- `QCAP` as a number. -/
def Block.qcap (s : Block z) : Nat := s.cfg.qcap.toNat

/-! ## Array elements (20_memory.md R50, R55) -/

/-- Element `k` of an array; `d` beyond its end, which no run reaches (20_memory.md R57; log 14). -/
def elemAt {α : Type} {n : Nat} (d : α) (v : Vector α n) (k : Nat) : α := if h : k < n then v[k] else d

/-- The array with element `k` replaced; as it was when `k` is beyond its end (20_memory.md R57; log 14). -/
def elemSet {α : Type} {n : Nat} (v : Vector α n) (k : Nat) (a : α) : Vector α n :=
  if h : k < n then v.set k a h else v

/-- Element `i` of a key map. -/
def mapAt (m : Vector KeyChar z.maxCells) (i : KeyIndex z) : KeyChar := elemAt 0 m i.toNat

/-- Element `i` of the cell table. -/
def cellAt (v : Vector (Cell z) z.maxCells) (i : KeyIndex z) : Cell z := elemAt ⟨0, 0⟩ v i.toNat

/-- The cell table with element `i` replaced. -/
def cellSet (v : Vector (Cell z) z.maxCells) (i : KeyIndex z) (c : Cell z) : Vector (Cell z) z.maxCells :=
  elemSet v i.toNat c

/-- Slot `k` of the queue buffer. -/
def slotAt (b : Vector (ActWord z) z.maxQ) (k : QIndex z) : ActWord z := elemAt 0 b k.toNat

/-- The queue buffer with slot `k` replaced. -/
def slotSet (b : Vector (ActWord z) z.maxQ) (k : QIndex z) (a : ActWord z) : Vector (ActWord z) z.maxQ :=
  elemSet b k.toNat a

/-! ## The matrix -/

/-- The flattened index of row `r` and column `c` (20_memory.md R51). With `r < ROWS`, `c < COLS` and
a legal configuration it is `r * COLS + c` exactly. -/
def flatIndex (g : ConfigRegs z) (r c : Nat) : KeyIndex z := BitVec.ofNat z.idxW (r * g.cols.toNat + c)

/-- `sample(r, c)`: the environment's reading of column `c` while row `r` is active (00_scope.md R14,
41_scan.md R130). -/
def reading (p : Pins z) (r c : Nat) : Bool := (p.colPressed[r]?.getD 0).getLsbD c

end Sys2Proof.Machine
end

