-- ==== Sys2Proof/Machine/Flags.lean ====
section
/-! DEFINITION. Machine/Flags.lean: the block's flags `LATCH` and `READY` (10_state.md R37) and the
indicator that follows them (R35). -/

namespace Sys2Proof.Machine

variable {z : Sizes}

/-- `SHIFT_IND` brought up to date: `READY and IND_PRESENT and LATCH` (10_state.md R35). Every write of
one of the three ends with it (log 16). -/
def syncInd (s : Block z) : Block z := { s with shiftInd := s.ready && s.cfg.indPresent && s.latch }

/-- `LATCH <- b`, with the indicator following in the same step (10_state.md R33, R35; 43_shift.md R176). -/
def setLatch (b : Bool) (s : Block z) : Block z := syncInd { s with latch := b }

/-- The shift-key test of 43_shift.md R161: by the raw, unshifted code, whatever `LATCH` is. -/
def isShift (g : ConfigRegs z) (i : KeyIndex z) : Bool :=
  decide (g.policyName ≠ .off) && g.shiftPresent && decide (mapAt g.umap i = g.shiftChar)

/-- Map selection of 43_shift.md R162: the shifted map when the latch is set under a policy other than Off. -/
def keyChar (g : ConfigRegs z) (latch : Bool) (i : KeyIndex z) : KeyChar :=
  if g.policyName ≠ .off ∧ latch = true then mapAt g.smap i else mapAt g.umap i

end Sys2Proof.Machine
end

