-- ==== Sys2Proof/Machine/Ops.lean ====
section
/-! DEFINITION. Machine/Ops.lean: the operations that commands share: responses and refusals
(30_encoding.md R73, R74, R79), the queue (42_queue.md R140 to R142), the row outputs (00_scope.md R14),
unspecified state (10_state.md R40), power-on reset (70_reset_and_hazards.md R235), and the ports
around a step (30_encoding.md R76).

TAKING AN EXCEPTION: the block has none (60_exceptions.md R212). What another machine would trap on is
a response with a status, and no state changes: `respondNotReady` and `respondIllegalOp`. There is
nothing to return from (60_exceptions.md R216). -/

namespace Sys2Proof.Machine

variable {z : Sizes}

/-! ## Outcomes -/

/-- An outcome with `f` applied to its next state. -/
def mapNext {α β : Type} (f : α → β) : Host.Outcome α Fault Refusal → Host.Outcome β Fault Refusal
  | .next s => .next (f s)
  | .fault r => .fault r
  | .refused r => .refused r

/-- What a block of the sizes `z` does, as what the machine built with these sizes does: the sizes stay
(00_scope.md R8). -/
def inState (o : Host.Outcome (Block z) Fault Refusal) : Host.Outcome State Fault Refusal :=
  mapNext (State.mk z) o

/-! ## Responses -/

/-- A response with a status and every other field 0 (30_encoding.md R74). -/
def Response.ofStatus (st : Status) : Response z where
  status := st.code
  consumed := false
  char := 0
  action := 0
  putFullCnt := 0
  cfgErr := 0

/-- `respond(...)`: ends the command with its response (00_scope.md R14). -/
def respond (r : Response z) (s : Block z) : Block z := { s with rsp := some r }

/-- The refusal of a command while `READY = 0`: no state changes (30_encoding.md R79). -/
def respondNotReady (s : Block z) : Block z := respond (.ofStatus .notReady) s

/-- The answer to a reserved opcode: no state changes (30_encoding.md R78). -/
def respondIllegalOp (s : Block z) : Block z := respond (.ofStatus .illegalOp) s

/-- The `READY` test of the dispatch (30_encoding.md R79, 60_exceptions.md R214): `act` runs when the
block is configured, else the command is refused with `NOT_READY`. -/
def whenReady (s : Block z) (act : Host.Outcome (Block z) Fault Refusal) : Host.Outcome (Block z) Fault Refusal :=
  if s.ready then act else .next (respondNotReady s)

/-! ## The queue, with capacity `cap` -/

/-- `(k + 1) mod cap`. -/
def qNext (cap : Nat) (k : QIndex z) : QIndex z := BitVec.ofNat z.qidxW ((k.toNat + 1) % cap)

/-- `Q_PUT(a)` (42_queue.md R140): the queue after it, and whether it reports "queue was full". When
the advanced `QIN` meets `QOUT`, the oldest entry is dropped. -/
def qPut (cap : Nat) (a : ActWord z) (q : Queue z) : Queue z × Bool :=
  if qNext cap q.qin = q.qout then
    ({ buf := slotSet q.buf q.qin a, qin := qNext cap q.qin, qout := qNext cap q.qout }, true)
  else ({ buf := slotSet q.buf q.qin a, qin := qNext cap q.qin, qout := q.qout }, false)

/-- `Q_GET()` (42_queue.md R141): the oldest live action and the queue after it, or `none` when empty. -/
def qGet (cap : Nat) (q : Queue z) : Option (ActWord z × Queue z) :=
  if q.qin = q.qout then none else some (slotAt q.buf q.qout, { q with qout := qNext cap q.qout })

/-- `Q_CLEAR()` (42_queue.md R142): the slots are not written. -/
def qClear (q : Queue z) : Queue z := { q with qin := 0, qout := 0 }

/-- `QCOUNT` (10_state.md R32). -/
def qCount (cap : Nat) (q : Queue z) : Nat := (q.qin.toNat + cap - q.qout.toNat) % cap

/-- The live entries, oldest first (10_state.md R32). -/
def qLive (cap : Nat) (q : Queue z) : List (ActWord z) :=
  (List.range (qCount cap q)).map fun k => slotAt q.buf (BitVec.ofNat z.qidxW ((q.qout.toNat + k) % cap))

/-! ## Scan outputs -/

/-- Appends an event to the output trace (log 9). -/
def logEvent (e : Event z) (s : Block z) : Block z := { s with trace := s.trace ++ [e] }

/-- `drive_row(r, b)` (00_scope.md R14): sets row output `r` (10_state.md R36). -/
def driveRow (r : Nat) (b : Bool) (s : Block z) : Block z :=
  logEvent (.row r b)
    { s with rowActive := if b then s.rowActive ||| BitVec.twoPow z.maxRows r
                          else s.rowActive &&& ~~~(BitVec.twoPow z.maxRows r) }

/-- `emit(i, kind)` (00_scope.md R14): puts the action `{i, LATCH, kind}`; answers whether the queue was full. -/
def emit (i : KeyIndex z) (k : Kind) (s : Block z) : Block z × Bool :=
  let a := packAction i s.latch k
  let put := qPut s.qcap a s.queue
  (logEvent (.put a put.2) { s with queue := put.1 }, put.2)

/-! ## Unspecified state (10_state.md R40; 93_implementation_defined.md U1; log 3) -/

/-- Configuration registers and maps of free values, `n` being the draw. -/
def freeConfig (n : Nat) : ConfigRegs z where
  rows := Config.freeBits z.rowW n 0 0
  cols := Config.freeBits z.colW n 1 0
  umap := Vector.ofFn fun j => Config.freeBits Config.charW n 13 j
  smapPresent := (Config.freeBits 1 n 2 0).getLsbD 0
  smap := Vector.ofFn fun j => Config.freeBits Config.charW n 14 j
  shiftPresent := (Config.freeBits 1 n 3 0).getLsbD 0
  shiftChar := Config.freeBits Config.charW n 4 0
  indPresent := (Config.freeBits 1 n 5 0).getLsbD 0
  policy := Config.freeBits 2 n 6 0
  debounce := Config.freeBits z.tickW n 7 0
  rdelay := Config.freeBits z.tickW n 8 0
  rtime := Config.freeBits z.tickW n 9 0
  qcap := Config.freeBits z.qcapW n 10 0

/-- A cell table of free values. -/
def freeCells (n : Nat) : Vector (Cell z) z.maxCells :=
  Vector.ofFn fun i => ⟨Config.freeBits 3 n 15 i, Config.freeBits z.tickW n 16 i⟩

/-- A queue of free values. -/
def freeQueue (n : Nat) : Queue z where
  buf := Vector.ofFn fun k => Config.freeBits z.actW n 17 k
  qin := Config.freeBits z.qidxW n 11 0
  qout := Config.freeBits z.qidxW n 12 0

/-- Configuration, maps, cells and queue become unspecified: each holds a fresh free value. -/
def unspecify (s : Block z) : Block z :=
  { s with cfg := freeConfig s.draws, cells := freeCells s.draws, queue := freeQueue s.draws, draws := s.draws + 1 }

/-! ## Reset and the ports around a step -/

/-- Power-on reset while the block runs (70_reset_and_hazards.md R235): the power-on column of
10_state.md R40, with no response. What is "unspecified" there is free (log 7). -/
def powerOnReset (s : Block z) : Block z :=
  { unspecify s with ready := false, cfgErr := 0, latch := false, rowActive := 0, shiftInd := false, rsp := none }

/-- A step begins: the last response is taken away and the output trace starts anew (log 8, log 9). -/
def accept (s : Block z) : Block z := { s with rsp := none, trace := [] }

/-- A step has ended: the outside world puts its next values at the input ports. When it has none, it
presents no command (log 4). -/
def advance (s : Block z) : Block z :=
  match s.pending with
  | [] => { s with pins := { s.pins with rstN := true, cmdValid := false } }
  | p :: ps => { s with pins := p, pending := ps }

/-- The command at the port, decoded when it is accepted (30_encoding.md R71, R77). -/
def fetch (s : Block z) : Except DecodeError Instr := decode s.pins.cmd

/-- `cmd_ready` between two steps: the block can accept a command (30_encoding.md R76,
70_reset_and_hazards.md R235). The model has no state inside a command, where it would be 0 (log 12). -/
def cmdReady (_ : State) : Bool := true

end Sys2Proof.Machine
end

