-- ==== Sys2Proof/Machine/Configure.lean ====
section
/-! DEFINITION. Machine/Configure.lean: `CONFIGURE` and `NOP` (44_configure.md). -/

namespace Sys2Proof.Machine

variable {z : Sizes}

/-- The upper bound of the time parameters, `2^(TICK_W-2)` (44_configure.md R191). -/
def timeBound (z : Sizes) : Nat := 2 ^ (z.tickW - 2)

/-- When one test of `CHECK()` fails (44_configure.md R191). -/
def cfgFails (c : CfgInputs z) : CfgError → Bool
  | .badRows => decide (c.rows.toNat = 0 ∨ z.maxRows < c.rows.toNat)
  | .badCols => decide (c.cols.toNat = 0 ∨ z.maxCols < c.cols.toNat)
  | .umapShort => decide (c.umapLen.toNat < c.rows.toNat * c.cols.toNat)
  | .smapShort => decide (c.smapPresent = true ∧ c.smapLen.toNat < c.rows.toNat * c.cols.toNat)
  | .badQcap => decide (c.qcap.toNat < 2 ∨ z.maxQ < c.qcap.toNat)
  | .badTime =>
    decide (timeBound z ≤ c.debounce.toNat ∨ timeBound z ≤ c.rdelay.toNat ∨ timeBound z ≤ c.rtime.toNat)
  | .noShiftKey => decide (Policy.ofCode c.policy ≠ .off ∧ c.shiftPresent = false)
  | .noSmap => decide (Policy.ofCode c.policy ≠ .off ∧ c.smapPresent = false)

/-- The tests in the order of 44_configure.md R191. -/
def cfgTests : List CfgError :=
  [.badRows, .badCols, .umapShort, .smapShort, .badQcap, .badTime, .noShiftKey, .noSmap]

/-- `CHECK()` (44_configure.md R191): the first test that fails; `none` is code 0. -/
def checkConfig (c : CfgInputs z) : Option CfgError := cfgTests.find? (cfgFails c)

/-- The configuration registers loaded from the inputs (30_encoding.md R75, 44_configure.md R190). -/
def loadConfig (c : CfgInputs z) : ConfigRegs z where
  rows := c.rows
  cols := c.cols
  umap := c.umap
  smapPresent := c.smapPresent
  smap := c.smap
  shiftPresent := c.shiftPresent
  shiftChar := c.shiftChar
  indPresent := c.indPresent
  policy := c.policy
  debounce := c.debounce
  rdelay := c.rdelay
  rtime := c.rtime
  qcap := c.qcap

/-- The cells of `INIT()`: cells in use become Released with deadline 0, the others are not written
(44_configure.md R192; log 11). -/
def initCells (n : Nat) (v : Vector (Cell z) z.maxCells) : Vector (Cell z) z.maxCells :=
  Vector.ofFn fun i => if i.val < n then ⟨CellState.released.code, 0⟩ else v[i]

/-- `INIT()` (44_configure.md R192). -/
def initRun (s : Block z) : Block z :=
  setLatch false { s with cells := initCells s.ncells s.cells, queue := qClear s.queue }

/-- The response to a configuration that is rejected (30_encoding.md R74). -/
def Response.cfgRejected (e : CfgError) : Response z := { Response.ofStatus .cfgErr with cfgErr := e.code }

/-- A failed `CONFIGURE` (44_configure.md R193): `READY`, `CFG_ERR` and `LATCH` are written, the
indicator follows, and all other state becomes unspecified (10_state.md R40). The row outputs, which
are 0 between commands, keep their value (10_state.md R36, R39). -/
def rejectConfig (e : CfgError) (s : Block z) : Block z :=
  syncInd { unspecify s with ready := false, cfgErr := e.code, latch := false }

/-- A successful `CONFIGURE` (44_configure.md R190). -/
def acceptConfig (c : CfgInputs z) (s : Block z) : Block z :=
  syncInd { initRun { s with cfg := loadConfig c } with ready := true, cfgErr := 0 }

/-- `CONFIGURE` (44_configure.md R190), whatever `READY` is (R194). -/
def execConfigure (s : State) : Host.Outcome State Fault Refusal :=
  inState <|
    match checkConfig s.block.pins.cfg with
    | some e => .next (respond (.cfgRejected e) (rejectConfig e s.block))
    | none => .next (respond (.ofStatus .ok) (acceptConfig s.block.pins.cfg s.block))

/-- `NOP` (44_configure.md R195): `OK`, and the block is left exactly as it was. -/
def execNop (s : State) : Host.Outcome State Fault Refusal :=
  inState (.next (respond (.ofStatus .ok) s.block))

end Sys2Proof.Machine
end

