-- ==== Sys2Proof/Machine/QueueCmd.lean ====
section
/-! DEFINITION. Machine/QueueCmd.lean: the queue commands (42_queue.md). -/

namespace Sys2Proof.Machine

variable {z : Sizes}

/-- `NEXT_ACTION` with an action: `OK`, consumed, the raw word (30_encoding.md R74). -/
def Response.rawAction (a : ActWord z) : Response z := { Response.ofStatus .ok with consumed := true, action := a }

/-- The end of `NEXT_ACTION` on a block from whose queue `a` was taken: `a` raw (42_queue.md R144). An action
of kind `0b11` is a fault (30_encoding.md R82). -/
def rawOutcome (a : ActWord z) (s : Block z) : Host.Outcome (Block z) Fault Refusal :=
  match actKind? a with
  | none => .fault (.badActionKind a.toNat)
  | some _ => .next (respond (.rawAction a) s)

/-- `NEXT_ACTION` (42_queue.md R144): the oldest live action, raw. `LATCH` is not touched. -/
def execNextAction (s : State) : Host.Outcome State Fault Refusal :=
  inState <| whenReady s.block <|
    match qGet s.block.qcap s.block.queue with
    | none => .next (respond (.ofStatus .none) s.block)
    | some (a, q) => rawOutcome a { s.block with queue := q }

/-- `QUEUE_CLEAR` (42_queue.md R145). -/
def execQueueClear (s : State) : Host.Outcome State Fault Refusal :=
  inState <| whenReady s.block <|
    .next (respond (.ofStatus .ok) { s.block with queue := qClear s.block.queue })

end Sys2Proof.Machine
end

