-- ==== Sys2Proof/Machine/CellFsm.lean ====
section
/-! DEFINITION. Machine/CellFsm.lean: the internal operation `CELL_STEP` (40_cell_fsm.md). -/

namespace Sys2Proof.Machine

variable {z : Sizes}

/-- The transition of one cell at every tick width (40_cell_fsm.md R96, R97 to R107): from a state and a
deadline `t`, with debounce time `d`, repeat delay `p` and repeat time `rt`, on a reading at time `now`,
to the next state, the next deadline, and the kind of the action emitted. -/
def cellNext {w : Nat} (d p rt : BitVec w) (st : CellState) (t : BitVec w) (held : Bool) (now : BitVec w) :
    CellState × BitVec w × Option Kind :=
  match st with
  | .released => if held then (.pressDebounce, addT now d, some .press) else (.released, t, none)
  | .pressDebounce => if due now t then (.pressed, addT t p, none) else (.pressDebounce, t, none)
  | .pressed =>
    if held = false then (.releaseDebounce, addT t d, some .release)
    else if due now t then (.repeating, addT t rt, some .repeated)
    else (.pressed, t, none)
  | .repeating =>
    if held = false then (.releaseDebounce, addT t d, some .release)
    else if due now t then (.repeating, addT t rt, some .repeated)
    else (.repeating, t, none)
  | .releaseDebounce => if due now t then (.released, 0, none) else (.releaseDebounce, t, none)

/-- Writes the result of a transition to cell `i` and puts the action it emits, if any. Answers Q_PUT's
report, `false` when nothing is emitted (41_scan.md R125). -/
def writeCell (i : KeyIndex z) (out : CellState × Tick z × Option Kind) (s : Block z) : Block z × Bool :=
  match out.2.2 with
  | none => ({ s with cells := cellSet s.cells i ⟨out.1.code, out.2.1⟩ }, false)
  | some k => emit i k { s with cells := cellSet s.cells i ⟨out.1.code, out.2.1⟩ }

/-- `CELL_STEP(i, held, now)` (40_cell_fsm.md R95, R96): one transition of cell `i`. A cell-state code of
5 to 7 is a fault (10_state.md R27). -/
def cellStep (i : KeyIndex z) (held : Bool) (now : Tick z) (s : Block z) : Except Fault (Block z × Bool) :=
  match CellState.ofCode? (cellAt s.cells i).st with
  | none => .error (.badCellState i.toNat (cellAt s.cells i).st)
  | some st =>
    .ok (writeCell i
      (cellNext s.cfg.debounce s.cfg.rdelay s.cfg.rtime st (cellAt s.cells i).next held now) s)

end Sys2Proof.Machine
end

