-- ==== Sys2Proof/Machine/Scan.lean ====
section
/-! DEFINITION. Machine/Scan.lean: the scan commands (41_scan.md). -/

namespace Sys2Proof.Machine

variable {z : Sizes}

/-- One turn of the inner loop of 41_scan.md R125: sample `(r, c)`, step its cell, count a full put. -/
def visitCell (now : Tick z) (r : Nat) (x : Block z × FullCount z) (c : Nat) :
    Except Fault (Block z × FullCount z) :=
  let p := reading x.1.pins r c
  match cellStep (flatIndex x.1.cfg r c) p now (logEvent (.sample x.1.rowActive r c p) x.1) with
  | .error f => .error f
  | .ok (s, full) => .ok (s, if full then x.2 + 1 else x.2)

/-- One turn of the outer loop: row `r` is driven, its columns are visited in index order, and it is
released (41_scan.md R127). -/
def visitRow (now : Tick z) (x : Block z × FullCount z) (r : Nat) :
    Except Fault (Block z × FullCount z) :=
  match (List.range x.1.cfg.cols.toNat).foldlM (visitCell now r) (driveRow r true x.1, x.2) with
  | .error f => .error f
  | .ok (s, cnt) => .ok (driveRow r false s, cnt)

/-- The sweep: rows in index order, the count from 0 (41_scan.md R125). One `now` serves all of it (R128). -/
def sweep (now : Tick z) (s : Block z) : Except Fault (Block z × FullCount z) :=
  (List.range s.cfg.rows.toNat).foldlM (visitRow now) (s, 0)

/-- The response of a scan (30_encoding.md R74, 41_scan.md R131). -/
def Response.scanned (cnt : FullCount z) : Response z := { Response.ofStatus .ok with putFullCnt := cnt }

/-- A scan of a configured block at timestamp `now` (41_scan.md R125). A matrix larger than the one
built is a fault (log 10). -/
def scanAt (now : Tick z) (s : Block z) : Host.Outcome (Block z) Fault Refusal :=
  if z.maxRows < s.cfg.rows.toNat ∨ z.maxCols < s.cfg.cols.toNat then .fault .matrixTooLarge
  else
    match sweep now s with
    | .error f => .fault f
    | .ok (t, cnt) => .next (respond (.scanned cnt) t)

/-- `SCAN now` (41_scan.md R125). -/
def execScan (now : Nat) (s : State) : Host.Outcome State Fault Refusal :=
  inState (whenReady s.block (scanAt (nowOperand s.sizes now) s.block))

/-- `SCAN_TICK` (41_scan.md R132): `SCAN` with `now <- tick_in`. -/
def execScanTick (s : State) : Host.Outcome State Fault Refusal :=
  inState (whenReady s.block (scanAt (tickOperand s.block) s.block))

end Sys2Proof.Machine
end

