-- ==== Sys2Proof/Machine/Shift.lean ====
section
/-! DEFINITION. Machine/Shift.lean: the shift policy (43_shift.md). -/

namespace Sys2Proof.Machine

variable {z : Sizes}

/-- The latch's new value when a shift-key Press or Repeat is resolved (43_shift.md R167, R169, R171,
R174); `none` where the policy does not write it. -/
def shiftPressLatch (p : Policy) (latch : Bool) : Option Bool :=
  match p with
  | .off => none
  | .oneShot => some (!latch)
  | .lock => some (!latch)
  | .hold => some true

/-- `RESOLVE(a)` (43_shift.md R164): the state after it and the character, if any. The action's shift bit is
not read (R163). An action of kind `0b11` is a fault (30_encoding.md R82). -/
def resolve (a : ActWord z) (s : Block z) : Except Fault (Block z × Option KeyChar) :=
  let i := actIndex a
  match actKind? a with
  | none => .error (.badActionKind a.toNat)
  | some .release =>
    if s.policy = .hold ∧ isShift s.cfg i = true then .ok (setLatch false s, none) else .ok (s, none)
  | some _ =>
    if isShift s.cfg i = true then
      match shiftPressLatch s.policy s.latch with
      | some b => .ok (setLatch b s, none)
      | none => .ok (s, none)
    else
      .ok (if s.policy = .oneShot then setLatch false s else s, some (keyChar s.cfg s.latch i))

/-- `NEXT_KEY` with a character: `OK`, consumed (30_encoding.md R74). -/
def Response.key (ch : KeyChar) : Response z := { Response.ofStatus .ok with consumed := true, char := ch }

/-- `NEXT_KEY` when the action yields no character: `NONE`, consumed (30_encoding.md R74). -/
def Response.drained : Response z := { Response.ofStatus .none with consumed := true }

/-- The end of `NEXT_KEY` after resolution (43_shift.md R175). -/
def keyOutcome : Except Fault (Block z × Option KeyChar) → Host.Outcome (Block z) Fault Refusal
  | .error f => .fault f
  | .ok (t, none) => .next (respond .drained t)
  | .ok (t, some ch) => .next (respond (.key ch) t)

/-- `NEXT_KEY` (43_shift.md R175): dequeues exactly one action and resolves it. -/
def execNextKey (s : State) : Host.Outcome State Fault Refusal :=
  inState <| whenReady s.block <|
    match qGet s.block.qcap s.block.queue with
    | none => .next (respond (.ofStatus .none) s.block)
    | some (a, q) => keyOutcome (resolve a { s.block with queue := q })

end Sys2Proof.Machine
end

