-- ==== Sys2Proof/Machine/Dispatch.lean ====
section
/-! DEFINITION. Machine/Dispatch.lean: each command's meaning (30_encoding.md R77). -/

namespace Sys2Proof.Machine

def exec (i : Instr) (s : State) : Host.Outcome State Fault Refusal :=
  match i with
  | .nop => Sys2Proof.Machine.execNop s
  | .configure => Sys2Proof.Machine.execConfigure s
  | .scan now => Sys2Proof.Machine.execScan now s
  | .scanTick => Sys2Proof.Machine.execScanTick s
  | .nextKey => Sys2Proof.Machine.execNextKey s
  | .nextAction => Sys2Proof.Machine.execNextAction s
  | .queueClear => Sys2Proof.Machine.execQueueClear s

end Sys2Proof.Machine
end

