-- ==== Sys2Proof/Machine/Step.lean ====
section
/-! DEFINITION. Machine/Step.lean: one step of the block (00_scope.md R6): power-on reset, an idle
cycle, or one accepted command from acceptance to response (30_encoding.md R76). -/

namespace Sys2Proof.Machine

/-- The dispatch of an accepted command (30_encoding.md R79): a reserved opcode answers `ILLEGAL_OP`
and changes no state, and every other command has its meaning. -/
def runCommand (s : State) : Host.Outcome State Fault Refusal :=
  match fetch s.block with
  | .error (.reservedOpcode _) => .next ⟨s.sizes, respondIllegalOp s.block⟩
  | .ok i => exec i s

/-- The state with the ports moved on (log 4). -/
def portsMoved (s : State) : State := ⟨s.sizes, advance s.block⟩

/-- One step. While `rst_n = 0` the block goes to its power-on state (70_reset_and_hazards.md R235);
without a command it is idle and holds all state (60_exceptions.md R227); else it runs the command at
the port. Then the outside world puts its next values at the input ports (log 4). -/
def step (s : State) : Host.Outcome State Fault Refusal :=
  mapNext portsMoved <|
    if s.block.pins.rstN = false then .next ⟨s.sizes, powerOnReset (accept s.block)⟩
    else if s.block.pins.cmdValid = false then .next ⟨s.sizes, accept s.block⟩
    else runCommand ⟨s.sizes, accept s.block⟩

/-- `s` with the command that `cmdOfWord` reads from the `nbits` low bits of `w` presented at the
command port, so that the next step runs it (log 5). -/
def State.withFetchWord (s : State) (nbits w : Nat) : State :=
  { s with
    block :=
      { s.block with
        pins :=
          { s.block.pins with
            rstN := true, cmdValid := true, cmd := cmdOfWord s.sizes (w % 2 ^ nbits) } } }

end Sys2Proof.Machine
end

