-- ==== Sys2Proof/Machine/Assembler.lean ====
section
/-! DEFINITION. Machine/Assembler.lean: the textual syntax of command sequences (30_encoding.md R83)
and what one line puts at the block's input ports. The block never reads text: this stands on the
host's side of the ports, and no step depends on it (log 17). MKSE-1 has no pseudo-instructions
(30_encoding.md R84): every line is one command. -/

namespace Sys2Proof.Machine

variable {z : Sizes}

/-! ## Lines -/

/-- The fields of a `CONFIGURE` line. -/
structure ConfigLine where
  /-- `rows=`. -/
  rows : Nat
  /-- `cols=`. -/
  cols : Nat
  /-- `umap=`, character by character (20_memory.md R52). -/
  umap : List KeyChar
  /-- `smap=`, if given. -/
  smap : Option (List KeyChar)
  /-- `shift=`, if given. -/
  shift : Option KeyChar
  /-- `ind`, if given. -/
  ind : Bool
  /-- `policy=`. -/
  policy : Policy
  /-- `debounce=`. -/
  debounce : Nat
  /-- `rdelay=`. -/
  rdelay : Nat
  /-- `rtime=`. -/
  rtime : Nat
  /-- `qcap=`. -/
  qcap : Nat
  deriving DecidableEq, Repr

/-- One line of the syntax. `readings` lists the rows given after the bar, column 0 first. -/
inductive Line where
  /-- `NOP`. -/
  | nop
  /-- `CONFIGURE …`. -/
  | configure (c : ConfigLine)
  /-- `SCAN <now> [| r<k>=<bits> …]`. -/
  | scan (now : Nat) (readings : List (Nat × List Bool))
  /-- `SCAN_TICK [| tick=<v>] [| r<k>=<bits> …]`. -/
  | scanTick (tick : Option Nat) (readings : List (Nat × List Bool))
  /-- `NEXT_KEY`. -/
  | nextKey
  /-- `NEXT_ACTION`. -/
  | nextAction
  /-- `QUEUE_CLEAR`. -/
  | queueClear
  deriving DecidableEq, Repr

/-! ## From a line to the ports -/

/-- A value that fits a port of `w` bits. -/
def fitBits (w n : Nat) : Option (BitVec w) := if n < 2 ^ w then some (BitVec.ofNat w n) else none

/-- A key map whose first characters are those of a string; the rest keeps what the port holds. -/
def mapInputs (base : Vector KeyChar z.maxCells) (str : List KeyChar) : Vector KeyChar z.maxCells :=
  Vector.ofFn fun j => str[j.val]?.getD base[j]

/-- The column bits of one row, column 0 first; a column not written reads 0. -/
def rowBits (bits : List Bool) : BitVec z.maxCols :=
  BitVec.ofFnLE fun c : Fin z.maxCols => bits[c.val]?.getD false

/-- The readings of a scan line: a row not listed reads all 0. `none` when a row is listed that is not
built (log 17). -/
def readingInputs (rs : List (Nat × List Bool)) : Option (Vector (BitVec z.maxCols) z.maxRows) :=
  if rs.all fun x => decide (x.1 < z.maxRows) then
    some (Vector.ofFn fun r => rowBits ((rs.lookup r.val).getD []))
  else none

/-- The configuration inputs of a `CONFIGURE` line: the string lengths give `cfg_umap_len` and
`cfg_smap_len`, and an absent `smap`, `shift` or `ind` gives the matching `cfg_*_present = 0`. What the
line does not say keeps what the ports hold. `none` when a value does not fit its port (log 17). -/
def configInputs (base : CfgInputs z) (c : ConfigLine) : Option (CfgInputs z) :=
  match fitBits z.rowW c.rows, fitBits z.colW c.cols, fitBits z.lenW c.umap.length,
    fitBits z.lenW (c.smap.getD []).length, fitBits z.tickW c.debounce,
    fitBits z.tickW c.rdelay, fitBits z.tickW c.rtime, fitBits z.qcapW c.qcap with
  | some rows, some cols, some umapLen, some smapLen, some debounce, some rdelay, some rtime, some qcap =>
    some
      { rows := rows, cols := cols, umapLen := umapLen, umap := mapInputs base.umap c.umap
        smapPresent := c.smap.isSome
        smapLen := if c.smap.isSome then smapLen else base.smapLen
        smap := mapInputs base.smap (c.smap.getD [])
        shiftPresent := c.shift.isSome, shiftChar := c.shift.getD base.shiftChar, indPresent := c.ind
        policy := c.policy.code, debounce := debounce, rdelay := rdelay, rtime := rtime, qcap := qcap }
  | _, _, _, _, _, _, _, _ => none

/-- The ports with a command presented: its opcode, and `cmd_now` where the command carries one. -/
def present (base : Pins z) (i : Instr) : Pins z :=
  { base with
    rstN := true, cmdValid := true
    cmd := match i with
      | .scan _ => encode z i
      | _ => ⟨(encode z i).op, base.cmd.now⟩ }

/-- The ports with a scan presented: the command, the tick where the line gives one, and the readings. -/
def presentScan (base : Pins z) (i : Instr) (tick : Option (Tick z)) (rs : List (Nat × List Bool)) :
    Option (Pins z) :=
  (readingInputs rs).map fun v =>
    { present base i with tickIn := tick.getD base.tickIn, colPressed := v }

/-- What a line puts at the input ports, from what they held before (30_encoding.md R83). `none` when a
value does not fit its port (log 17). -/
def assemble (base : Pins z) : Line → Option (Pins z)
  | .nop => some (present base .nop)
  | .configure c => (configInputs base.cfg c).map fun g => { present base .configure with cfg := g }
  | .scan now rs => (fitBits z.tickW now).bind fun _ => presentScan base (.scan now) none rs
  | .scanTick none rs => presentScan base .scanTick none rs
  | .scanTick (some v) rs => (fitBits z.tickW v).bind fun t => presentScan base .scanTick (some t) rs
  | .nextKey => some (present base .nextKey)
  | .nextAction => some (present base .nextAction)
  | .queueClear => some (present base .queueClear)

/-- A command sequence: each line starts from the ports as the line before left them. -/
def assembleAll (base : Pins z) : List Line → Option (List (Pins z))
  | [] => some []
  | l :: ls =>
    match assemble base l with
    | none => none
    | some p => (assembleAll p ls).map (p :: ·)

/-! ## From text to a line -/

/-- Where the word splitter stands: between quotes a space, a bar or a `;` is an ordinary character. -/
inductive LexMode where
  /-- Outside quotes. -/
  | plain
  /-- Inside a string. -/
  | inString
  /-- After the opening quote of a character. -/
  | inChar
  /-- After a quoted character. -/
  | closeChar
  deriving DecidableEq, Repr

/-- Adds the word read so far, if any, in front of the words that follow. -/
def flushWord (cur : List Char) (ws : List (List Char)) : List (List Char) :=
  if cur.isEmpty then ws else cur.reverse :: ws

/-- The words of a line, quotes kept; `;` starts a comment (30_encoding.md R83). DESIGN CHOICE (log 17), where
R83 is silent: only white space outside quotes ends a word; the double quotes of a line pair up from the
left, so a double quote inside a string closes it and the next one opens it again, all in one word unless
white space stands between; a line that ends inside quotes is unreadable. -/
def splitWords : LexMode → List Char → List Char → Option (List (List Char))
  | .plain, cur, [] => some (flushWord cur [])
  | _, _, [] => none
  | .plain, cur, c :: cs =>
    if c = ';' then some (flushWord cur [])
    else if c.isWhitespace then (splitWords .plain [] cs).map (flushWord cur)
    else if c = '"' then splitWords .inString (c :: cur) cs
    else if c = '\'' then splitWords .inChar (c :: cur) cs
    else splitWords .plain (c :: cur) cs
  | .inString, cur, c :: cs => splitWords (if c = '"' then .plain else .inString) (c :: cur) cs
  | .inChar, cur, c :: cs => splitWords .closeChar (c :: cur) cs
  | .closeChar, cur, c :: cs => if c = '\'' then splitWords .plain (c :: cur) cs else none

/-- The value of a digit in base 16. -/
def digitValue (c : Char) : Option Nat :=
  if '0' ≤ c ∧ c ≤ '9' then some (c.toNat - 48)
  else if 'a' ≤ c ∧ c ≤ 'f' then some (c.toNat - 87)
  else if 'A' ≤ c ∧ c ≤ 'F' then some (c.toNat - 55)
  else none

/-- A number from its digits, in the given base. -/
def readDigits (base : Nat) : Nat → List Char → Option Nat
  | acc, [] => some acc
  | acc, c :: cs =>
    match digitValue c with
    | some d => if d < base then readDigits base (acc * base + d) cs else none
    | none => none

/-- A number, decimal or `0x` hexadecimal. 30_encoding.md R83 says so of `<now>` and `<ms>`. DESIGN CHOICE (log
17), where R83 is silent: every other number of a line (`<R>`, `<C>`, `<N>`, `<v>`, `<k>`) is read alike,
hexadecimal digits may be of either case, and the `x` is a small one. -/
def readNumber : List Char → Option Nat
  | [] => none
  | '0' :: 'x' :: c :: cs => readDigits 16 0 (c :: cs)
  | cs => readDigits 10 0 cs

/-- An 8-bit character code (93_implementation_defined.md G2). -/
def readCode (c : Char) : Option KeyChar := fitBits Config.charW c.toNat

/-- A quoted string: what stands between the first and the last double quote of its word. DESIGN CHOICE (log
17), where 30_encoding.md R83 is silent: there is no escape, and double quotes inside are ordinary
characters; as the double quotes of a line pair up (`splitWords`), an odd number of them in the only
string that has any makes the line unreadable. -/
def readString : List Char → Option (List KeyChar)
  | '"' :: cs => if cs.getLast? = some '"' then cs.dropLast.mapM readCode else none
  | _ => none

/-- A quoted character: any one character between single quotes, which may be a quote itself (log 17). -/
def readChar : List Char → Option KeyChar
  | ['\'', c, '\''] => readCode c
  | _ => none

/-- A policy name. -/
def readPolicy (w : List Char) : Option Policy :=
  if w = "Off".toList then some .off
  else if w = "OneShot".toList then some .oneShot
  else if w = "Lock".toList then some .lock
  else if w = "Hold".toList then some .hold
  else none

/-- The part of `key=value` after `key=`, for the first word with that key. -/
def fieldOf (key : String) : List (List Char) → Option (List Char)
  | [] => none
  | w :: ws =>
    if (key.toList ++ ['=']).isPrefixOf w then some (w.drop (key.toList.length + 1)) else fieldOf key ws

/-- A field that may be absent: absent, present and readable, or unreadable. -/
def optField {α : Type} (read : List Char → Option α) (key : String) (ws : List (List Char)) :
    Option (Option α) :=
  match fieldOf key ws with
  | none => some none
  | some v => (read v).map some

/-- A field that must be there. -/
def field {α : Type} (read : List Char → Option α) (key : String) (ws : List (List Char)) : Option α :=
  (fieldOf key ws).bind read

/-- The fields of a `CONFIGURE` line. DESIGN CHOICE (log 17), where 30_encoding.md R83 is silent: the fields
may stand in any order, the numbers `<R>`, `<C>` and `<N>` may be in either base like `<ms>`, of a field
given twice the first counts, and a word that the grammar does not have (an unknown key, a stray word) is ignored. -/
def readConfig (ws : List (List Char)) : Option ConfigLine := do
  let rows ← field readNumber "rows" ws
  let cols ← field readNumber "cols" ws
  let umap ← field readString "umap" ws
  let smap ← optField readString "smap" ws
  let shift ← optField readChar "shift" ws
  let policy ← field readPolicy "policy" ws
  let debounce ← field readNumber "debounce" ws
  let rdelay ← field readNumber "rdelay" ws
  let rtime ← field readNumber "rtime" ws
  let qcap ← field readNumber "qcap" ws
  pure
    { rows := rows, cols := cols, umap := umap, smap := smap, shift := shift
      ind := ws.contains "ind".toList, policy := policy, debounce := debounce, rdelay := rdelay
      rtime := rtime, qcap := qcap }

/-- The bits of one row, column 0 first; there may be none (log 17). -/
def readBits : List Char → Option (List Bool)
  | [] => some []
  | c :: cs =>
    if c = '0' then (readBits cs).map (false :: ·)
    else if c = '1' then (readBits cs).map (true :: ·)
    else none

/-- One `r<k>=<bits>`. DESIGN CHOICE (log 17), where 30_encoding.md R83 is silent: `<k>` may be in either base. -/
def readReading (w : List Char) : Option (Nat × List Bool) :=
  match w with
  | 'r' :: cs =>
    match readNumber (cs.takeWhile (· ≠ '=')), cs.dropWhile (· ≠ '=') with
    | some k, _ :: bits => (readBits bits).map (k, ·)
    | _, _ => none
  | _ => none

/-- One line of text (30_encoding.md R83). DESIGN CHOICE (log 17), where R83 is silent: a line that is blank
or holds only a `;` comment is unreadable, `none`, not a line of no command; a bar must be a word of its
own, with white space (or an end of the line) on both sides, and such a bar is dropped wherever it
stands and need not be there; a bar that touches another word makes a scan line unreadable and is part of a word of any other line; of a tick or
a row given twice the first counts. -/
def readLine (text : List Char) : Option Line :=
  match (splitWords .plain [] text).map (·.filter (· ≠ ['|'])) with
  | some (op :: args) =>
    if op = "NOP".toList ∧ args = [] then some .nop
    else if op = "CONFIGURE".toList then (readConfig args).map .configure
    else if op = "SCAN".toList then
      match args with
      | n :: rs =>
        (readNumber n).bind fun now => (rs.mapM readReading).map fun r => .scan now r
      | [] => none
    else if op = "SCAN_TICK".toList then
      (optField readNumber "tick" args).bind fun tick =>
        ((args.filter fun w => !("tick=".toList.isPrefixOf w)).mapM readReading).map fun r => .scanTick tick r
    else if op = "NEXT_KEY".toList ∧ args = [] then some .nextKey
    else if op = "NEXT_ACTION".toList ∧ args = [] then some .nextAction
    else if op = "QUEUE_CLEAR".toList ∧ args = [] then some .queueClear
    else none
  | _ => none

end Sys2Proof.Machine
end

