-- ==== Sys2Proof/Safety.lean ====
section
/-! DEFINITION. Safety.lean: the terms that claims use. Which states the block can be in (10_state.md),
which states the host cannot tell apart (R40), a scan lane by lane (41_scan.md R133), one cell over many
scans (40_cell_fsm.md), and what the host owes (70_reset_and_hazards.md R241, R242). -/

namespace Sys2Proof.Machine

variable {z : Sizes}

/-! ## Legal states -/

/-- A configuration that passes every check holds these values (10_state.md R24, R25; 44_configure.md R191). -/
structure ConfigRegs.Legal (g : ConfigRegs z) : Prop where
  rows_pos : 1 ≤ g.rows.toNat
  rows_le : g.rows.toNat ≤ z.maxRows
  cols_pos : 1 ≤ g.cols.toNat
  cols_le : g.cols.toNat ≤ z.maxCols
  qcap_ge : 2 ≤ g.qcap.toNat
  qcap_le : g.qcap.toNat ≤ z.maxQ
  debounce_lt : g.debounce.toNat < 2 ^ (z.tickW - 2)
  rdelay_lt : g.rdelay.toNat < 2 ^ (z.tickW - 2)
  rtime_lt : g.rtime.toNat < 2 ^ (z.tickW - 2)
  shift_key : g.policyName ≠ .off → g.shiftPresent = true
  shift_map : g.policyName ≠ .off → g.smapPresent = true

/-- A cell holds one of the five states, and deadline 0 while Released (10_state.md R27, R29). -/
abbrev Cell.Legal (c : Cell z) : Prop :=
  cellStateBitsWf c.st = true ∧ (c.st = CellState.released.code → c.next = 0)

/-- An action names a cell in use and has one of the three kinds (30_encoding.md R72, R82). -/
abbrev ActionLegal (g : ConfigRegs z) (a : ActWord z) : Prop :=
  kindBitsWf (actKindBits a) = true ∧ (actIndex a).toNat < g.ncells

/-- Both queue indices range over `0..cap-1` (10_state.md R31). -/
abbrev Queue.InRange (cap : Nat) (q : Queue z) : Prop := q.qin.toNat < cap ∧ q.qout.toNat < cap

/-- The states of a block between commands that the rules allow. -/
structure Block.Inv (s : Block z) : Prop where
  /-- Outside a scan all row outputs are 0 (10_state.md R36). -/
  rows_idle : s.rowActive = 0
  /-- The indicator follows its definition (10_state.md R35). -/
  indicator : s.shiftInd = (s.ready && s.cfg.indPresent && s.latch)
  /-- `CFG_ERR` holds a code that exists (10_state.md R26, 44_configure.md R191). -/
  err_code : cfgErrBitsWf s.cfgErr = true
  /-- `READY = 1` only after success (10_state.md R23, R26). -/
  ready_no_err : s.ready = true → s.cfgErr = 0
  /-- `LATCH` is 0 while the block is not configured (10_state.md R40). -/
  latch_unready : s.ready = false → s.latch = false
  /-- Under Off, `LATCH` is always 0 (10_state.md R34, 43_shift.md R166). -/
  latch_off : s.ready = true → s.policy = .off → s.latch = false
  /-- While configured, the configuration is legal (10_state.md R24). -/
  config : s.ready = true → s.cfg.Legal
  /-- While configured, the queue indices are in range (10_state.md R31). -/
  queue_range : s.ready = true → s.queue.InRange s.qcap
  /-- While configured, every cell in use is legal (10_state.md R27, R29). -/
  cells : s.ready = true → ∀ i : KeyIndex z, i.toNat < s.ncells → (cellAt s.cells i).Legal
  /-- While configured, every live action is legal (30_encoding.md R72). -/
  live : s.ready = true → ∀ a ∈ qLive s.qcap s.queue, ActionLegal s.cfg a
  /-- A response has a status that exists (30_encoding.md R73). -/
  status : ∀ r, s.rsp = some r → statusBitsWf r.status = true

/-- The states of the machine that the rules allow: allowed sizes (00_scope.md R8) and a legal block. -/
structure State.Inv (s : State) : Prop where
  /-- The constraints of R8. -/
  sizes : s.sizes.wf = true
  /-- The block is in a legal state. -/
  block : s.block.Inv

/-! ## What the host can tell apart -/

/-- Two configurations agree in every register and in the map characters of the cells in use; the
characters beyond are never read (10_state.md R24, 93_implementation_defined.md U4). -/
structure ConfigRegs.Agree (g h : ConfigRegs z) : Prop where
  rows : g.rows = h.rows
  cols : g.cols = h.cols
  smapPresent : g.smapPresent = h.smapPresent
  shiftPresent : g.shiftPresent = h.shiftPresent
  shiftChar : g.shiftChar = h.shiftChar
  indPresent : g.indPresent = h.indPresent
  policy : g.policy = h.policy
  debounce : g.debounce = h.debounce
  rdelay : g.rdelay = h.rdelay
  rtime : g.rtime = h.rtime
  qcap : g.qcap = h.qcap
  umap : ∀ i : KeyIndex z, i.toNat < g.ncells → mapAt g.umap i = mapAt h.umap i
  smap : ∀ i : KeyIndex z, i.toNat < g.ncells → mapAt g.smap i = mapAt h.smap i

/-- Two states of a block that differ at most in what 10_state.md R40 calls unspecified: everything but the flags,
the outputs and the ports while `READY = 0`; cells and map characters not in use and queue slots outside
the live range while `READY = 1`. The count of free draws may differ too. -/
structure Block.Agree (s t : Block z) : Prop where
  ready : s.ready = t.ready
  cfgErr : s.cfgErr = t.cfgErr
  latch : s.latch = t.latch
  rowActive : s.rowActive = t.rowActive
  shiftInd : s.shiftInd = t.shiftInd
  rsp : s.rsp = t.rsp
  pins : s.pins = t.pins
  pending : s.pending = t.pending
  trace : s.trace = t.trace
  cfg : s.ready = true → s.cfg.Agree t.cfg
  cells : s.ready = true → ∀ i : KeyIndex z, i.toNat < s.ncells → cellAt s.cells i = cellAt t.cells i
  qin : s.ready = true → s.queue.qin = t.queue.qin
  qout : s.ready = true → s.queue.qout = t.queue.qout
  live : s.ready = true → qLive s.qcap s.queue = qLive t.qcap t.queue

/-! ## A scan, lane by lane (41_scan.md R133) -/

/-- The timestamp at which a command scans (30_encoding.md R80): for `SCAN` its operand, for `SCAN_TICK` the
tick input; `none` for the commands that are no scan. -/
def scanTime (s : Block z) : Instr → Option (Tick z)
  | .scan now => some (BitVec.ofNat z.tickW now)
  | .scanTick => some s.pins.tickIn
  | .nop => none
  | .configure => none
  | .nextKey => none
  | .nextAction => none
  | .queueClear => none

/-- The reading of cell `i` in this step: row `i / COLS`, column `i mod COLS` (20_memory.md R51). -/
def laneReading (s : Block z) (i : KeyIndex z) : Bool :=
  reading s.pins (i.toNat / s.cfg.cols.toNat) (i.toNat % s.cfg.cols.toNat)

/-- The transition of cell `i` in a scan at `now` (40_cell_fsm.md R96), from the cell's own values, its
reading and the time parameters alone. -/
def laneNext (now : Tick z) (s : Block z) (i : KeyIndex z) : CellState × Tick z × Option Kind :=
  cellNext s.cfg.debounce s.cfg.rdelay s.cfg.rtime
    ((CellState.ofCode? (cellAt s.cells i).st).getD .released) (cellAt s.cells i).next (laneReading s i) now

/-- The cell table after a scan at `now`: every cell in use has stepped, no other has changed. -/
def laneCells (now : Tick z) (s : Block z) : Vector (Cell z) z.maxCells :=
  Vector.ofFn fun n =>
    if n.val < s.ncells then
      ⟨(laneNext now s (BitVec.ofNat z.idxW n)).1.code, (laneNext now s (BitVec.ofNat z.idxW n)).2.1⟩
    else s.cells[n]

/-- The actions a scan at `now` emits, in sweep order, each stamped with `LATCH` (41_scan.md R127, R129). -/
def laneActions (now : Tick z) (s : Block z) : List (ActWord z) :=
  (List.range s.ncells).filterMap fun n =>
    (laneNext now s (BitVec.ofNat z.idxW n)).2.2.map (packAction (BitVec.ofNat z.idxW n) s.latch)

/-- Puts a list of actions in order; answers the queue and the number of puts that reported full. -/
def putAll (cap : Nat) : List (ActWord z) → Queue z → Queue z × Nat
  | [], q => (q, 0)
  | a :: as, q =>
    let put := qPut cap a q
    let rest := putAll cap as put.1
    (rest.1, rest.2 + if put.2 then 1 else 0)

/-- The row outputs while only row `r` is active. -/
def onlyRow (z : Sizes) (r : Nat) : BitVec z.maxRows := BitVec.twoPow z.maxRows r

/-- The output trace of a scan at `now` (41_scan.md R127): each row rises alone, its columns are sampled in
order, each sample followed by the put of its cell, if it emits, and the row falls. What a put reports is
left out, as `false`. -/
def sweepTrace (now : Tick z) (s : Block z) : List (Event z) :=
  (List.range s.cfg.rows.toNat).flatMap fun r =>
    .row r true ::
      ((List.range s.cfg.cols.toNat).flatMap fun c =>
        .sample (onlyRow z r) r c (reading s.pins r c) ::
          ((laneNext now s (flatIndex s.cfg r c)).2.2.map fun k =>
            .put (packAction (flatIndex s.cfg r c) s.latch k) false).toList) ++
        [.row r false]

/-- An event without what a put reports. -/
def Event.withoutReport : Event z → Event z
  | .row r b => .row r b
  | .sample active r c p => .sample active r c p
  | .put a _ => .put a false

/-! ## One cell over many scans -/

/-- A cell's state and deadline after a list of scans, each a reading and a time, and the kinds of the
actions it emitted, in order. -/
def cellRun {w : Nat} (d p rt : BitVec w) : CellState → BitVec w → List (Bool × BitVec w) →
    CellState × BitVec w × List Kind
  | st, t, [] => (st, t, [])
  | st, t, (held, now) :: scans =>
    let out := cellNext d p rt st t held now
    let rest := cellRun d p rt out.1 out.2.1 scans
    (rest.1, rest.2.1, out.2.2.toList ++ rest.2.2)

/-- The key stream of 40_cell_fsm.md R117, from a key that is up (`down = false`) or down: a Press, then
Repeats, then a Release, then again. The stream may end anywhere. -/
def keyStream : Bool → List Kind → Bool
  | _, [] => true
  | false, .press :: ks => keyStream true ks
  | true, .repeated :: ks => keyStream true ks
  | true, .release :: ks => keyStream false ks
  | _, _ => false

/-! ## Runs -/

/-- `n` steps that all answer a next state, and that state; `none` when the machine stops. -/
def runSteps : Nat → State → Option State
  | 0, s => some s
  | n + 1, s =>
    match step s with
    | .next t => runSteps n t
    | .fault _ => none
    | .refused _ => none

/-! ## What the host owes (log 15)

The block checks none of this (60_exceptions.md R220, 70_reset_and_hazards.md R242). -/

/-- Consecutive scans less than `bound` ms apart (70_reset_and_hazards.md R242): `DEBOUNCE` for (a), the
shortest time parameter for (b), `2^(TICK_W-1)` for (c). With the last bound it says that timestamps do
not run backwards, modulo wrap (R241): each is `due` at the next. -/
def spacingBelow {w : Nat} (bound : Nat) : List (BitVec w) → Prop
  | a :: b :: ts => (subT b a).toNat < bound ∧ spacingBelow bound (b :: ts)
  | _ => True

/-- The time from the first of a list of scans to the last, counted without wrapping. -/
def elapsed {w : Nat} : List (BitVec w) → Nat
  | a :: b :: ts => (subT b a).toNat + elapsed (b :: ts)
  | _ => 0

end Sys2Proof.Machine
end

