-- ==== Sys2Proof/Certificates/Slice0/Obligations.lean ====
section
/-! DEFINITION. Certificates/Slice0/Obligations.lean: what is claimed of the model, for the provers. Each
statement's docstring names the rule of spec/ it formalises. The statements hold for a block of any sizes
`z` (00_scope.md R8). -/

open Sys2Proof Sys2Proof.Machine

/-! ## Encodings (30_encoding.md) -/

/-- R71, R77: the word of every command, its operand at every value, decodes to that command. -/
def Obligations.CommandWordRoundTrip : Prop :=
  (∀ (z : Sizes) (i : Instr), i.wf z = true →
    decode (encode z i) = .ok i ∧ cmdOfWord z (wordOfCmd (encode z i)) = encode z i) ∧
  ∀ i : Instr, i.wf Sizes.defaults = true →
    decodeTableWord 36 (wordOfCmd (encode Sizes.defaults i)) = some i

/-- R77, R78: the decoder accepts exactly the opcodes 0x0 to 0x6, refuses the others by name, and a
command it reads is written back with the same opcode. -/
def Obligations.ReservedOpcodesRefusedByDecoder : Prop :=
  ∀ (z : Sizes) (c : Cmd z),
    (7 ≤ c.op.toNat → decode c = .error (.reservedOpcode c.op)) ∧
    (c.op.toNat < 7 → ∃ i, decode c = .ok i ∧ (encode z i).op = c.op)

/-- R71: `cmd_now` is read by `SCAN` alone; every other command decodes alike whatever it is. -/
def Obligations.OnlyScanReadsCmdNow : Prop :=
  ∀ (z : Sizes) (op : BitVec 4) (n m : Tick z),
    (op = 0x2#4 → decode (⟨op, n⟩ : Cmd z) = .ok (.scan n.toNat)) ∧
    (op ≠ 0x2#4 → decode (⟨op, n⟩ : Cmd z) = decode (⟨op, m⟩ : Cmd z))

/-- Words written out from R77 decode to their commands: a sanity check. -/
def Obligations.SampleWordsDecode : Prop :=
  decodeTableWord 8 0x0 = some .nop ∧ decodeTableWord 8 0x1 = some .configure ∧
  decodeTableWord 36 0x3E82 = some (.scan 0x3E8) ∧ decodeTableWord 8 0x3 = some .scanTick ∧
  decodeTableWord 8 0x4 = some .nextKey ∧ decodeTableWord 8 0x5 = some .nextAction ∧
  decodeTableWord 8 0x6 = some .queueClear ∧ decodeTableWord 8 0x7 = none ∧ decodeTableWord 8 0xF = none

/-- R72: the action word as a number, and its three fields read back. -/
def Obligations.ActionWordLayout : Prop :=
  ∀ (z : Sizes) (i : KeyIndex z) (sh : Bool) (k : Kind),
    (packAction i sh k).toNat =
      8 * i.toNat + (if sh then 4 else 0) +
        (match k with
          | .press => 0
          | .release => 1
          | .repeated => 2) ∧
    actIndex (packAction i sh k) = i ∧ actShift (packAction i sh k) = sh ∧
    actKind? (packAction i sh k) = some k

/-- R72, R82: every word but those of kind `0b11` is the word of its three fields. -/
def Obligations.ActionWordReadsBack : Prop :=
  ∀ (z : Sizes) (a : ActWord z),
    (actKindBits a = 0b11#2 → actKind? a = none) ∧
    (actKindBits a ≠ 0b11#2 → ∃ k, actKind? a = some k ∧ packAction (actIndex a) (actShift a) k = a)

/-- R83, R80: what a line that has been read puts at the ports is the command it names, with `cmd_now` for
`SCAN` and the tick for `SCAN_TICK`. That a number fits its port, and that a `SCAN_TICK` line without a tick
keeps the port's tick, is the model's choice (log 17). -/
def Obligations.AssembledLinesDecode : Prop :=
  ∀ (z : Sizes) (base p : Pins z) (l : Line), assemble base l = some p →
    p.rstN = true ∧ p.cmdValid = true ∧
    (match l with
      | .nop => decode p.cmd = .ok .nop
      | .configure _ => decode p.cmd = .ok .configure
      | .scan now _ => now < 2 ^ z.tickW ∧ decode p.cmd = .ok (.scan now)
      | .scanTick none _ => decode p.cmd = .ok .scanTick ∧ p.tickIn = base.tickIn
      | .scanTick (some v) _ => decode p.cmd = .ok .scanTick ∧ v < 2 ^ z.tickW ∧ p.tickIn = BitVec.ofNat z.tickW v
      | .nextKey => decode p.cmd = .ok .nextKey
      | .nextAction => decode p.cmd = .ok .nextAction
      | .queueClear => decode p.cmd = .ok .queueClear)

/-! ## The step (00_scope.md R6, 30_encoding.md R76, R79) -/

/-- R6, R76, R77, R79: a step with a command that decodes runs that command. The last response and trace are
taken away first, and the outside world moves its inputs on afterwards: the model's choices (logs 4, 8, 9). -/
def Obligations.StepRunsDecodedCommand : Prop :=
  ∀ (z : Sizes) (s : Block z) (i : Instr), s.pins.rstN = true → s.pins.cmdValid = true → i.wf z = true →
    decode s.pins.cmd = .ok i →
    step ⟨z, s⟩ = mapNext portsMoved (exec i ⟨z, { s with rsp := none, trace := [] }⟩)

/-- R78, R79: a reserved opcode answers `ILLEGAL_OP` with every other field 0, whatever `READY` is, and
changes no state. That the trace starts anew and the ports move on is the model's choice (logs 4, 9). -/
def Obligations.StepAnswersReservedOpcode : Prop :=
  ∀ (z : Sizes) (s : Block z), s.pins.rstN = true → s.pins.cmdValid = true → 7 ≤ s.pins.cmd.op.toNat →
    step ⟨z, s⟩ = .next ⟨z, advance { s with rsp := some ⟨3#3, false, 0, 0, 0, 0⟩, trace := [] }⟩

/-- R235: a step with `rst_n = 0` leaves the power-on values and no response. What R40 calls unspecified
is not named. That the ports move on is the model's choice (log 4). -/
def Obligations.StepResetsOnRstN : Prop :=
  ∀ (z : Sizes) (s : Block z), s.pins.rstN = false →
    ∃ t : Block z, step ⟨z, s⟩ = .next ⟨z, t⟩ ∧ t.ready = false ∧ t.cfgErr = 0 ∧ t.latch = false ∧
      t.rowActive = 0 ∧ t.shiftInd = false ∧ t.rsp = none ∧ t.pins = (advance s).pins ∧
      t.pending = (advance s).pending

/-- R227: without a command the block holds all state. That the standing response is taken away, the trace
starts anew and the ports move on is the model's choice (logs 8, 9, 4). -/
def Obligations.StepIdlesWithoutCommand : Prop :=
  ∀ (z : Sizes) (s : Block z), s.pins.rstN = true → s.pins.cmdValid = false →
    step ⟨z, s⟩ = .next ⟨z, advance { s with rsp := none, trace := [] }⟩

/-- R40, R235: the values the spec gives for power-on reset, at any sizes; `State.reset` is the block of the
default sizes of R8. -/
def Obligations.PowerOnResetValues : Prop :=
  (∀ z : Sizes,
    (Block.reset z).ready = false ∧ (Block.reset z).cfgErr = 0 ∧ (Block.reset z).latch = false ∧
    (Block.reset z).rowActive = 0 ∧ (Block.reset z).shiftInd = false ∧ (Block.reset z).rsp = none) ∧
  State.reset = ⟨⟨32, 16, 16, 64⟩, Block.reset _⟩

/-- R79, R211: while `READY = 0` the five commands that need a keyboard answer `NOT_READY` with every other
field 0, and change nothing. -/
def Obligations.NotReadyRefusesCommands : Prop :=
  ∀ (z : Sizes) (s : Block z) (i : Instr), s.ready = false → i ≠ .nop → i ≠ .configure →
    exec i ⟨z, s⟩ = .next ⟨z, { s with rsp := some ⟨2#3, false, 0, 0, 0, 0⟩ }⟩

/-! ## NOP and CONFIGURE (44_configure.md) -/

/-- R195: `NOP`, opcode 0x0 with any `cmd_now`, answers `OK`, whatever `READY` is, and leaves the block exactly
as it was. -/
def Obligations.NopLeavesBlockUnchanged : Prop :=
  ∀ (z : Sizes) (s : Block z) (now : Tick z),
    decode (⟨0x0#4, now⟩ : Cmd z) = .ok .nop ∧
    exec .nop ⟨z, s⟩ = .next ⟨z, { s with rsp := some ⟨0#3, false, 0, 0, 0, 0⟩ }⟩

/-- R191: `CHECK()` reports the code of the first test that fails, in the order of the table, else 0. -/
def Obligations.CheckReportsFirstFailingTest : Prop :=
  ∀ (z : Sizes) (c : CfgInputs z),
    (checkConfig c).elim 0 CfgError.code =
      if c.rows.toNat = 0 ∨ z.maxRows < c.rows.toNat then 1#4
      else if c.cols.toNat = 0 ∨ z.maxCols < c.cols.toNat then 2#4
      else if c.umapLen.toNat < c.rows.toNat * c.cols.toNat then 3#4
      else if c.smapPresent = true ∧ c.smapLen.toNat < c.rows.toNat * c.cols.toNat then 4#4
      else if c.qcap.toNat < 2 ∨ z.maxQ < c.qcap.toNat then 5#4
      else if 2 ^ (z.tickW - 2) ≤ c.debounce.toNat ∨ 2 ^ (z.tickW - 2) ≤ c.rdelay.toNat ∨
          2 ^ (z.tickW - 2) ≤ c.rtime.toNat then 6#4
      else if c.policy ≠ 0#2 ∧ c.shiftPresent = false then 7#4
      else if c.policy ≠ 0#2 ∧ c.smapPresent = false then 8#4
      else 0#4

/-- R190, R192: a configuration that passes every check is loaded whole; the cells in use become Released
with deadline 0, the queue empty, the latch 0, the indicator 0; the queue's slots and the cells not in
use are not written; the response is `OK`. -/
def Obligations.ConfigureLoadsAndInitialises : Prop :=
  ∀ (z : Sizes) (s : Block z), checkConfig s.pins.cfg = none →
    exec .configure ⟨z, s⟩ = .next ⟨z,
      { s with
        ready := true, cfgErr := 0
        cfg :=
          { rows := s.pins.cfg.rows, cols := s.pins.cfg.cols, umap := s.pins.cfg.umap
            smapPresent := s.pins.cfg.smapPresent, smap := s.pins.cfg.smap
            shiftPresent := s.pins.cfg.shiftPresent, shiftChar := s.pins.cfg.shiftChar
            indPresent := s.pins.cfg.indPresent, policy := s.pins.cfg.policy
            debounce := s.pins.cfg.debounce, rdelay := s.pins.cfg.rdelay, rtime := s.pins.cfg.rtime
            qcap := s.pins.cfg.qcap }
        cells := Vector.ofFn fun j =>
          if j.val < s.pins.cfg.rows.toNat * s.pins.cfg.cols.toNat then ⟨0#3, 0⟩ else s.cells[j]
        queue := { s.queue with qin := 0, qout := 0 }
        latch := false, shiftInd := false
        rsp := some ⟨0#3, false, 0, 0, 0, 0⟩ }⟩

/-- R193: a configuration that fails a check clears `READY` and `LATCH`, records and returns the code, and
turns the indicator off; until a later `CONFIGURE` every command but `NOP` and `CONFIGURE` then answers
`NOT_READY`. What becomes unspecified is not named. -/
def Obligations.ConfigureRejectsWhole : Prop :=
  ∀ (z : Sizes) (s : Block z) (e : CfgError), checkConfig s.pins.cfg = some e →
    ∃ t : Block z, exec .configure ⟨z, s⟩ = .next ⟨z, t⟩ ∧ t.ready = false ∧ t.cfgErr = e.code ∧
      t.latch = false ∧ t.shiftInd = false ∧ t.rsp = some ⟨4#3, false, 0, 0, 0, e.code⟩ ∧
      t.rowActive = s.rowActive ∧ t.pins = s.pins ∧ t.pending = s.pending ∧ t.trace = s.trace ∧
      ∀ i : Instr, i ≠ .nop → i ≠ .configure →
        exec i ⟨z, t⟩ = .next ⟨z, { t with rsp := some ⟨2#3, false, 0, 0, 0, 0⟩ }⟩

/-! ## Tick arithmetic (00_scope.md R12, R13), at every width -/

/-- R13: `due(now, t)` holds exactly when `sub_T(now, t)`, read as two's complement, is not negative, that is
while it is below `2^(TICK_W-1)`; a difference of exactly half the range is not due. -/
def Obligations.DueIsHalfRange : Prop :=
  ∀ (w : Nat) (now t : BitVec (w + 1)),
    (due now t = true ↔ 0 ≤ (now - t).toInt) ∧ (due now t = true ↔ (now - t).toNat < 2 ^ w) ∧
      ((now - t).toNat = 2 ^ w → due now t = false)

/-- R242(c), R115: a scan less than half the range after one at which a deadline was still ahead, by
`(t - now).toNat` and at most half the range, finds it due exactly when that much time has passed. -/
def Obligations.NoDeadlineIsSkippedWithinHorizon : Prop :=
  ∀ (w : Nat) (now later t : BitVec (w + 1)),
    0 < (t - now).toNat → (t - now).toNat ≤ 2 ^ w → (later - now).toNat < 2 ^ w →
    (due later t = true ↔ (t - now).toNat ≤ (later - now).toNat)

/-! ## The cell state machine (40_cell_fsm.md), at every tick width -/

/-- R97, R98: Released waits for a pressed reading, and then sets its deadline from `now`; no other state
does: what it leaves there is the old deadline, that plus one of the time parameters, or 0. -/
def Obligations.ReleasedTransitions : Prop :=
  ∀ (w : Nat) (d p rt t now : BitVec w),
    cellNext d p rt .released t false now = (.released, t, none) ∧
    cellNext d p rt .released t true now = (.pressDebounce, now + d, some .press) ∧
    ∀ (st : CellState) (held : Bool), st ≠ .released →
      (cellNext d p rt st t held now).2.1 ∈ [t, t + d, t + p, t + rt, 0]

/-- R99, R100: PressDebounce is a pure timeout, whatever the reading. -/
def Obligations.PressDebounceTransitions : Prop :=
  ∀ (w : Nat) (d p rt t now : BitVec w) (held : Bool),
    (due now t = false → cellNext d p rt .pressDebounce t held now = (.pressDebounce, t, none)) ∧
    (due now t = true → cellNext d p rt .pressDebounce t held now = (.pressed, t + p, none))

/-- R101, R103, and R102 for Pressed: Pressed releases on a released reading, due or not; held, it repeats when due. -/
def Obligations.PressedTransitions : Prop :=
  ∀ (w : Nat) (d p rt t now : BitVec w),
    cellNext d p rt .pressed t false now = (.releaseDebounce, t + d, some .release) ∧
    (due now t = true → cellNext d p rt .pressed t true now = (.repeating, t + rt, some .repeated)) ∧
    (due now t = false → cellNext d p rt .pressed t true now = (.pressed, t, none))

/-- R104, R107, and R102 for Repeating: Repeating releases on a released reading, due or not; held, it repeats when due. -/
def Obligations.RepeatingTransitions : Prop :=
  ∀ (w : Nat) (d p rt t now : BitVec w),
    cellNext d p rt .repeating t false now = (.releaseDebounce, t + d, some .release) ∧
    (due now t = true → cellNext d p rt .repeating t true now = (.repeating, t + rt, some .repeated)) ∧
    (due now t = false → cellNext d p rt .repeating t true now = (.repeating, t, none))

/-- R105, R106: ReleaseDebounce is a pure timeout, whatever the reading. -/
def Obligations.ReleaseDebounceTransitions : Prop :=
  ∀ (w : Nat) (d p rt t now : BitVec w) (held : Bool),
    (due now t = true → cellNext d p rt .releaseDebounce t held now = (.released, 0, none)) ∧
    (due now t = false → cellNext d p rt .releaseDebounce t held now = (.releaseDebounce, t, none))

/-- R114: shifting every time by one offset, wherever the counter wraps, changes no state and no action
of a cell, and shifts its deadline by the same offset. -/
def Obligations.WrapAroundIsInvisible : Prop :=
  ∀ (w : Nat) (d p rt off t : BitVec w) (st : CellState) (scans : List (Bool × BitVec w)),
    let a := cellRun d p rt st t scans
    let b := cellRun d p rt st (t + off) (scans.map fun x => (x.1, x.2 + off))
    b.1 = a.1 ∧ b.2.2 = a.2.2 ∧ (a.1 ≠ .released → b.2.1 = a.2.1 + off)

/-- R109: from a press at time `n0` until the release, every deadline is the one accumulated from `n0` and
the parameters, whenever the scans came: the first repeat deadline is `n0 + D + P`, and after the `k`-th
Repeat it is `n0 + D + P + k·T`. -/
def Obligations.DeadlinesAccumulateFromPress : Prop :=
  ∀ (w : Nat) (d p rt t0 n0 : BitVec w) (scans : List (Bool × BitVec w)),
    let run := cellRun d p rt .released t0 ((true, n0) :: scans)
    Kind.release ∉ run.2.2 →
      ∃ k : Nat, run.2.2 = .press :: List.replicate k .repeated ∧
        ((run.1 = .pressDebounce ∧ k = 0 ∧ run.2.1 = n0 + d) ∨
          (run.1 = .pressed ∧ k = 0 ∧ run.2.1 = n0 + d + p) ∨
          (run.1 = .repeating ∧ 1 ≤ k ∧ run.2.1 = n0 + d + p + BitVec.ofNat w k * rt))

/-- R110: a release seen at `now` with the deadline `t` pending opens a window that ends at the first later
scan due for `t + D`: the pending time is carried over. -/
def Obligations.ReleaseWindowCarriesPendingTime : Prop :=
  ∀ (w : Nat) (d p rt t now n held_at : BitVec w) (st : CellState) (held : Bool),
    st = .pressed ∨ st = .repeating →
    let out := cellNext d p rt st t false now
    out = (.releaseDebounce, t + d, some .release) ∧ subT out.2.1 now = subT t now + d ∧
      ((cellNext d p rt out.1 out.2.1 held n).1 = .released ↔ due n (t + d) = true) ∧
      cellNext d p rt st t false held_at = out

/-- R117: whatever the readings and times, the actions of one cell from Released are Press, Repeats,
Release, and again from the start; it is Released or in ReleaseDebounce exactly when the last Press has
had its Release. -/
def Obligations.CellEmitsKeyStream : Prop :=
  ∀ (w : Nat) (d p rt t : BitVec w) (scans : List (Bool × BitVec w)),
    let run := cellRun d p rt .released t scans
    keyStream false run.2.2 = true ∧
      ((run.1 = .released ∨ run.1 = .releaseDebounce) ↔
        run.2.2.count .press = run.2.2.count .release)

/-- R117, R118, R242(c): with scans within the wrap-safe horizon, a cell pressed at `n0` stays in
PressDebounce exactly until `D` has passed, whatever the readings, and the first scan at or after that
makes it Pressed with the deadline `n0 + D + P`, with no action but the Press. -/
def Obligations.PressDebounceEndsOnTime : Prop :=
  ∀ (w : Nat) (d p rt t0 n0 : BitVec (w + 1)) (scans : List (Bool × BitVec (w + 1))) (held : Bool)
    (n : BitVec (w + 1)),
    d.toNat ≤ 2 ^ w →
    spacingBelow (2 ^ w) (n0 :: (scans.map (·.2) ++ [n])) → elapsed (n0 :: scans.map (·.2)) < d.toNat →
    cellRun d p rt .released t0 ((true, n0) :: scans) = (.pressDebounce, n0 + d, [.press]) ∧
    cellRun d p rt .released t0 ((true, n0) :: (scans ++ [(held, n)])) =
      if elapsed (n0 :: (scans.map (·.2) ++ [n])) < d.toNat then (.pressDebounce, n0 + d, [.press])
      else (.pressed, n0 + d + p, [.press])

/-! ## Scans (41_scan.md) -/

/-- R125, R126, R128, R129, R131, R132, R133: a scan of a configured block, by `SCAN` at its operand or by
`SCAN_TICK` at the tick input, answers `OK` with the count of full puts; every cell in use has stepped
once on its own reading and no other cell has changed; the actions went into the queue in sweep order,
each stamped with `LATCH`; nothing else but the output trace has changed. -/
def Obligations.ScanIsLaneWise : Prop :=
  ∀ (z : Sizes) (s : Block z) (i : Instr) (now : Tick z), scanTime s i = some now →
    s.ready = true → s.rowActive = 0 → s.cfg.rows.toNat ≤ z.maxRows → s.cfg.cols.toNat ≤ z.maxCols →
    (∀ n : KeyIndex z, n.toNat < s.cfg.rows.toNat * s.cfg.cols.toNat → (cellAt s.cells n).st.toNat < 5) →
    ∃ tr, exec i ⟨z, s⟩ = .next ⟨z,
      { s with
        cells := laneCells now s
        queue := (putAll s.cfg.qcap.toNat (laneActions now s) s.queue).1
        trace := tr
        rsp := some ⟨0#3, false, 0, 0,
          BitVec.ofNat z.cntW (putAll s.cfg.qcap.toNat (laneActions now s) s.queue).2, 0⟩ }⟩

/-- R127: what a scan does at the pins and at the queue is, row by row in index order: the row rises alone,
its columns are sampled in index order, once each, every sample followed by the put of its cell's action,
if there is one, and the row falls. -/
def Obligations.ScanDrivesRowsInOrder : Prop :=
  ∀ (z : Sizes) (s t : Block z) (i : Instr) (now : Tick z), scanTime s i = some now →
    s.ready = true → s.rowActive = 0 → exec i ⟨z, s⟩ = .next ⟨z, t⟩ →
    t.rowActive = 0 ∧
      t.trace.map Event.withoutReport = s.trace.map Event.withoutReport ++ sweepTrace now s

/-- R129: every action a scan puts carries the latch as it stands during the scan, which the scan never
writes. -/
def Obligations.ScanStampsEveryActionWithLatch : Prop :=
  ∀ (z : Sizes) (s t : Block z) (i : Instr) (now : Tick z), scanTime s i = some now →
    s.trace = [] → exec i ⟨z, s⟩ = .next ⟨z, t⟩ →
      t.latch = s.latch ∧ ∀ a full, .put a full ∈ t.trace → actShift a = s.latch

/-- R131: the count a scan returns is the number of its puts that reported a full queue, at most `NCELLS`,
and it fits its field. -/
def Obligations.ScanCountsFullPuts : Prop :=
  ∀ (z : Sizes) (s t : Block z) (i : Instr) (now : Tick z) (r : Response z), scanTime s i = some now →
    s.ready = true → s.trace = [] → exec i ⟨z, s⟩ = .next ⟨z, t⟩ → t.rsp = some r →
    r.putFullCnt.toNat =
        (t.trace.filter fun e =>
          match e with
          | .put _ full => full
          | _ => false).length ∧
      r.putFullCnt.toNat ≤ s.cfg.rows.toNat * s.cfg.cols.toNat

/-- R134: a scan neither reads nor writes the key maps and the shift configuration. -/
def Obligations.ScanIgnoresShiftConfiguration : Prop :=
  ∀ (z : Sizes) (s : Block z) (i : Instr) (now : Tick z) (g : ConfigRegs z), scanTime s i = some now →
    g.rows = s.cfg.rows → g.cols = s.cfg.cols → g.debounce = s.cfg.debounce →
    g.rdelay = s.cfg.rdelay → g.rtime = s.cfg.rtime → g.qcap = s.cfg.qcap →
    ∃ o : Host.Outcome (Block z) Fault Refusal,
      exec i ⟨z, s⟩ = inState o ∧
      exec i ⟨z, { s with cfg := g }⟩ = inState (mapNext (fun t => { t with cfg := g }) o) ∧
      ∀ t, o = .next t → t.cfg = s.cfg

/-- A scan stops in the model exactly on values the block cannot hold (R27, U6 of
93_implementation_defined.md, and the model's own choice of log entry 10 for a matrix larger than built). -/
def Obligations.ScanStopsOnlyOnImpossibleValues : Prop :=
  ∀ (z : Sizes) (s : Block z) (i : Instr) (now : Tick z), scanTime s i = some now →
    ((∀ t, exec i ⟨z, s⟩ ≠ .next t) ↔
      s.ready = true ∧
        (z.maxRows < s.cfg.rows.toNat ∨ z.maxCols < s.cfg.cols.toNat ∨
          ∃ n : KeyIndex z,
            n.toNat < s.cfg.rows.toNat * s.cfg.cols.toNat ∧ 5 ≤ (cellAt s.cells n).st.toNat))

/-! ## The queue (42_queue.md) -/

/-- R140, R146: a put appends the new action to the live ones; it drops the oldest, and reports full, exactly
when `cap - 1` actions were live. -/
def Obligations.QPutIsBoundedFifo : Prop :=
  ∀ (z : Sizes) (cap : Nat) (a : ActWord z) (q : Queue z), 2 ≤ cap → cap ≤ z.maxQ → q.InRange cap →
    (qPut cap a q).1.InRange cap ∧
    ((qPut cap a q).2 = true ↔ (qLive cap q).length = cap - 1) ∧
    qLive cap (qPut cap a q).1 =
      (if (qPut cap a q).2 then (qLive cap q).tail else qLive cap q) ++ [a] ∧
    (qLive cap q).length ≤ cap - 1

/-- R141: a get takes the oldest live action, changes no slot, and reports empty exactly when none is live. -/
def Obligations.QGetTakesOldest : Prop :=
  ∀ (z : Sizes) (cap : Nat) (q : Queue z), 2 ≤ cap → cap ≤ z.maxQ → q.InRange cap →
    (qGet cap q = none ↔ qLive cap q = []) ∧
    ∀ a q', qGet cap q = some (a, q') →
      qLive cap q = a :: qLive cap q' ∧ q'.InRange cap ∧ q'.buf = q.buf ∧ q'.qin = q.qin

/-- R147: `cap` puts into an empty queue keep all actions but the first, in order; only the last put
reports full. -/
def Obligations.CapacityPutsDropOnlyOldest : Prop :=
  ∀ (z : Sizes) (cap : Nat) (q : Queue z) (as : List (ActWord z)), 2 ≤ cap → cap ≤ z.maxQ → q.InRange cap →
    qLive cap q = [] → as.length = cap →
    qLive cap (putAll cap as q).1 = as.tail ∧ (putAll cap as q).2 = 1 ∧ (putAll cap as.dropLast q).2 = 0

/-- R144: `NEXT_ACTION` answers `NOT_READY`, or `NONE` with nothing consumed and no change, or `OK` with the
word at `QOUT`, consumed, and `QOUT` one further modulo `QCAP`; nothing else changes. Its opcode is 0x5 with
any `cmd_now`. A word of the reserved kind stops it (R82, U7 of 93_implementation_defined.md). -/
def Obligations.NextActionReturnsRawAction : Prop :=
  ∀ (z : Sizes) (s : Block z) (now : Tick z),
    decode (⟨0x5#4, now⟩ : Cmd z) = .ok .nextAction ∧
    (s.ready = false →
      exec .nextAction ⟨z, s⟩ = .next ⟨z, { s with rsp := some ⟨2#3, false, 0, 0, 0, 0⟩ }⟩) ∧
    (s.ready = true → s.queue.qin = s.queue.qout →
      exec .nextAction ⟨z, s⟩ = .next ⟨z, { s with rsp := some ⟨1#3, false, 0, 0, 0, 0⟩ }⟩) ∧
    (s.ready = true → s.queue.qin ≠ s.queue.qout →
      actKindBits (slotAt s.queue.buf s.queue.qout) ≠ 0b11#2 →
      exec .nextAction ⟨z, s⟩ = .next ⟨z,
        { s with
          queue := { s.queue with
            qout := BitVec.ofNat z.qidxW ((s.queue.qout.toNat + 1) % s.cfg.qcap.toNat) }
          rsp := some ⟨0#3, true, 0, slotAt s.queue.buf s.queue.qout, 0, 0⟩ }⟩) ∧
    (s.ready = true → s.queue.qin ≠ s.queue.qout →
      actKindBits (slotAt s.queue.buf s.queue.qout) = 0b11#2 →
      exec .nextAction ⟨z, s⟩ = .fault (.badActionKind (slotAt s.queue.buf s.queue.qout).toNat))

/-- R144, R146: in a legal state `NEXT_ACTION` returns the oldest live action, and the others stay in order. -/
def Obligations.NextActionIsFifo : Prop :=
  ∀ (z : Sizes) (s : Block z) (a : ActWord z) (rest : List (ActWord z)), s.Inv → s.ready = true →
    qLive s.qcap s.queue = a :: rest →
    ∃ t : Block z, exec .nextAction ⟨z, s⟩ = .next ⟨z, t⟩ ∧ t.rsp = some ⟨0#3, true, 0, a, 0, 0⟩ ∧
      qLive t.qcap t.queue = rest ∧ t.latch = s.latch ∧ t.shiftInd = s.shiftInd ∧ t.cells = s.cells ∧
      t.cfg = s.cfg

/-- R145, R142, R56(d): `QUEUE_CLEAR` sets both indices to 0 and changes nothing else: the slots, the latch,
the cells and the maps stay; doing it again changes nothing. Its opcode is 0x6 with any `cmd_now`. -/
def Obligations.QueueClearEmptiesQueue : Prop :=
  ∀ (z : Sizes) (s : Block z) (now : Tick z),
    decode (⟨0x6#4, now⟩ : Cmd z) = .ok .queueClear ∧
    (s.ready = false →
      exec .queueClear ⟨z, s⟩ = .next ⟨z, { s with rsp := some ⟨2#3, false, 0, 0, 0, 0⟩ }⟩) ∧
    (s.ready = true →
      exec .queueClear ⟨z, s⟩ = .next ⟨z,
        { s with
          queue := { s.queue with qin := 0, qout := 0 }
          rsp := some ⟨0#3, false, 0, 0, 0, 0⟩ }⟩ ∧
      ∀ t : Block z, exec .queueClear ⟨z, s⟩ = .next ⟨z, t⟩ →
        exec .queueClear ⟨z, t⟩ = .next ⟨z, t⟩ ∧ qLive t.qcap t.queue = [])

/-! ## NEXT_KEY (43_shift.md) -/

/-- R175: on an empty queue `NEXT_KEY` answers `NONE` with nothing consumed and changes nothing. -/
def Obligations.NextKeyOnEmptyQueue : Prop :=
  ∀ (z : Sizes) (s : Block z), s.ready = true → s.queue.qin = s.queue.qout →
    exec .nextKey ⟨z, s⟩ = .next ⟨z, { s with rsp := some ⟨1#3, false, 0, 0, 0, 0⟩ }⟩

/-- R165, R172: a Release is drained without a character; it writes the latch only when it is a shift key's
under Hold, and then clears it and the indicator. -/
def Obligations.NextKeyDrainsRelease : Prop :=
  ∀ (z : Sizes) (s : Block z) (a : ActWord z), s.ready = true → s.queue.qin ≠ s.queue.qout →
    a = slotAt s.queue.buf s.queue.qout → actKindBits a = 0b01#2 →
    let clears := s.cfg.policy = 3#2 ∧ s.cfg.shiftPresent = true ∧
      mapAt s.cfg.umap (actIndex a) = s.cfg.shiftChar
    (clears →
      exec .nextKey ⟨z, s⟩ = .next ⟨z,
        { s with
          queue := { s.queue with
            qout := BitVec.ofNat z.qidxW ((s.queue.qout.toNat + 1) % s.cfg.qcap.toNat) }
          latch := false, shiftInd := false
          rsp := some ⟨1#3, true, 0, 0, 0, 0⟩ }⟩) ∧
    (¬clears →
      exec .nextKey ⟨z, s⟩ = .next ⟨z,
        { s with
          queue := { s.queue with
            qout := BitVec.ofNat z.qidxW ((s.queue.qout.toNat + 1) % s.cfg.qcap.toNat) }
          rsp := some ⟨1#3, true, 0, 0, 0, 0⟩ }⟩)

/-- R167, R169, R171, R174: a shift key's Press or Repeat yields no character; OneShot and Lock toggle the
latch, Hold sets it; the indicator follows in the same step. -/
def Obligations.NextKeyShiftKeyWritesLatch : Prop :=
  ∀ (z : Sizes) (s : Block z) (a : ActWord z), s.ready = true → s.queue.qin ≠ s.queue.qout →
    a = slotAt s.queue.buf s.queue.qout → actKindBits a = 0b00#2 ∨ actKindBits a = 0b10#2 →
    s.cfg.policy ≠ 0#2 → s.cfg.shiftPresent = true →
    mapAt s.cfg.umap (actIndex a) = s.cfg.shiftChar →
    let latch' := if s.cfg.policy = 3#2 then true else !s.latch
    exec .nextKey ⟨z, s⟩ = .next ⟨z,
      { s with
        queue := { s.queue with
          qout := BitVec.ofNat z.qidxW ((s.queue.qout.toNat + 1) % s.cfg.qcap.toNat) }
        latch := latch', shiftInd := s.cfg.indPresent && latch'
        rsp := some ⟨1#3, true, 0, 0, 0, 0⟩ }⟩

/-- R162, R166, R168, R170, R173: any other Press or Repeat yields its character, from the shifted map when
the latch is set under a policy other than Off, whatever the character is; OneShot then clears the
latch, and no other policy writes it. -/
def Obligations.NextKeyReturnsCharacter : Prop :=
  ∀ (z : Sizes) (s : Block z) (a : ActWord z), s.ready = true → s.queue.qin ≠ s.queue.qout →
    a = slotAt s.queue.buf s.queue.qout → actKindBits a = 0b00#2 ∨ actKindBits a = 0b10#2 →
    (s.cfg.policy = 0#2 ∨ s.cfg.shiftPresent = false ∨
      mapAt s.cfg.umap (actIndex a) ≠ s.cfg.shiftChar) →
    let ch := if s.cfg.policy ≠ 0#2 ∧ s.latch = true then mapAt s.cfg.smap (actIndex a)
      else mapAt s.cfg.umap (actIndex a)
    exec .nextKey ⟨z, s⟩ = .next ⟨z,
      { s with
        queue := { s.queue with
          qout := BitVec.ofNat z.qidxW ((s.queue.qout.toNat + 1) % s.cfg.qcap.toNat) }
        latch := if s.cfg.policy = 1#2 then false else s.latch
        shiftInd := if s.cfg.policy = 1#2 then false else s.shiftInd
        rsp := some ⟨0#3, true, ch, 0, 0, 0⟩ }⟩

/-- R82, U7 of 93_implementation_defined.md: an action of kind `0b11` at the head stops the model, and that is
the one way `NEXT_KEY` and `NEXT_ACTION` stop. -/
def Obligations.DequeueStopsOnlyOnReservedKind : Prop :=
  ∀ (z : Sizes) (s : Block z) (i : Instr), i = .nextKey ∨ i = .nextAction →
    ((∀ t, exec i ⟨z, s⟩ ≠ .next t) ↔
      s.ready = true ∧ s.queue.qin ≠ s.queue.qout ∧
        actKindBits (slotAt s.queue.buf s.queue.qout) = 0b11#2)

/-- R163: resolution does not read the shift bit the action was stamped with. -/
def Obligations.ResolutionIgnoresStamp : Prop :=
  ∀ (z : Sizes) (s : Block z) (i : KeyIndex z) (k : Kind) (b c : Bool),
    resolve (packAction i b k) s = resolve (packAction i c k) s ∧ ∃ x, resolve (packAction i b k) s = .ok x

/-- R177, first part: under OneShot with the latch 0, a shift Press and then two other keys' Presses give
none, the first key's shifted character, and the second key's unshifted one. -/
def Obligations.OneShotShiftsOneKey : Prop :=
  ∀ (z : Sizes) (s : Block z) (i j k : KeyIndex z) (b₁ b₂ b₃ : Bool) (rest : List (ActWord z)),
    s.Inv → s.ready = true → s.policy = .oneShot → s.latch = false →
    qLive s.qcap s.queue =
      packAction i b₁ .press :: packAction j b₂ .press :: packAction k b₃ .press :: rest →
    mapAt s.cfg.umap i = s.cfg.shiftChar → mapAt s.cfg.umap j ≠ s.cfg.shiftChar →
    mapAt s.cfg.umap k ≠ s.cfg.shiftChar →
    ∃ t₁ t₂ t₃ : Block z, exec .nextKey ⟨z, s⟩ = .next ⟨z, t₁⟩ ∧ exec .nextKey ⟨z, t₁⟩ = .next ⟨z, t₂⟩ ∧ exec .nextKey ⟨z, t₂⟩ = .next ⟨z, t₃⟩ ∧
      t₁.rsp = some ⟨1#3, true, 0, 0, 0, 0⟩ ∧ t₁.latch = true ∧
      t₂.rsp = some ⟨0#3, true, mapAt s.cfg.smap j, 0, 0, 0⟩ ∧ t₂.latch = false ∧
      t₃.rsp = some ⟨0#3, true, mapAt s.cfg.umap k, 0, 0, 0⟩ ∧ t₃.latch = false ∧
      qLive t₃.qcap t₃.queue = rest

/-- R177, second part: under OneShot two shift Presses in a row give no character and leave the latch as it
was. -/
def Obligations.OneShotDoubleShiftCancels : Prop :=
  ∀ (z : Sizes) (s : Block z) (i j : KeyIndex z) (b₁ b₂ : Bool) (rest : List (ActWord z)),
    s.Inv → s.ready = true → s.policy = .oneShot →
    qLive s.qcap s.queue = packAction i b₁ .press :: packAction j b₂ .press :: rest →
    mapAt s.cfg.umap i = s.cfg.shiftChar → mapAt s.cfg.umap j = s.cfg.shiftChar →
    ∃ t₁ t₂ : Block z, exec .nextKey ⟨z, s⟩ = .next ⟨z, t₁⟩ ∧ exec .nextKey ⟨z, t₁⟩ = .next ⟨z, t₂⟩ ∧
      t₁.rsp = some ⟨1#3, true, 0, 0, 0, 0⟩ ∧ t₂.rsp = some ⟨1#3, true, 0, 0, 0, 0⟩ ∧
      t₂.latch = s.latch ∧ t₂.shiftInd = s.shiftInd ∧ qLive t₂.qcap t₂.queue = rest

/-- R178: under Lock with the latch 0, shift, key, shift, key gives none, the first key's shifted character,
none, and the second key's unshifted one. -/
def Obligations.LockShiftsBetweenShiftPresses : Prop :=
  ∀ (z : Sizes) (s : Block z) (i j k l : KeyIndex z) (b₁ b₂ b₃ b₄ : Bool) (rest : List (ActWord z)),
    s.Inv → s.ready = true → s.policy = .lock → s.latch = false →
    qLive s.qcap s.queue =
      packAction i b₁ .press :: packAction j b₂ .press :: packAction k b₃ .press ::
        packAction l b₄ .press :: rest →
    mapAt s.cfg.umap i = s.cfg.shiftChar → mapAt s.cfg.umap j ≠ s.cfg.shiftChar →
    mapAt s.cfg.umap k = s.cfg.shiftChar → mapAt s.cfg.umap l ≠ s.cfg.shiftChar →
    ∃ t₁ t₂ t₃ t₄ : Block z, exec .nextKey ⟨z, s⟩ = .next ⟨z, t₁⟩ ∧ exec .nextKey ⟨z, t₁⟩ = .next ⟨z, t₂⟩ ∧
      exec .nextKey ⟨z, t₂⟩ = .next ⟨z, t₃⟩ ∧ exec .nextKey ⟨z, t₃⟩ = .next ⟨z, t₄⟩ ∧
      t₁.rsp = some ⟨1#3, true, 0, 0, 0, 0⟩ ∧
      t₂.rsp = some ⟨0#3, true, mapAt s.cfg.smap j, 0, 0, 0⟩ ∧ t₂.latch = true ∧
      t₃.rsp = some ⟨1#3, true, 0, 0, 0, 0⟩ ∧
      t₄.rsp = some ⟨0#3, true, mapAt s.cfg.umap l, 0, 0, 0⟩ ∧ t₄.latch = false ∧
      qLive t₄.qcap t₄.queue = rest

/-! ## The whole machine -/

/-- R39: which command may write which state. Whatever a command's list does not name is unchanged. -/
def Obligations.EachCommandWritesOnlyItsState : Prop :=
  ∀ (z : Sizes) (i : Instr) (s t : Block z), exec i ⟨z, s⟩ = .next ⟨z, t⟩ →
    t.pins = s.pins ∧ t.pending = s.pending ∧
    (i ≠ .configure → t.ready = s.ready ∧ t.cfgErr = s.cfgErr ∧ t.cfg = s.cfg ∧ t.draws = s.draws) ∧
    (i ≠ .configure → i ≠ .nextKey → t.latch = s.latch ∧ t.shiftInd = s.shiftInd) ∧
    (i ≠ .configure → i ≠ .scanTick → (∀ now, i ≠ .scan now) →
      t.cells = s.cells ∧ t.queue.buf = s.queue.buf ∧ t.trace = s.trace ∧
      (i ≠ .queueClear → t.queue.qin = s.queue.qin) ∧ (i = .nop → t.queue = s.queue)) ∧
    (i ≠ .scanTick → (∀ now, i ≠ .scan now) → t.rowActive = s.rowActive)

/-- R75, R80, R66: the configuration inputs are read by `CONFIGURE` alone, the tick input by `SCAN_TICK`
alone, and the readings by the scans alone; no command reads the command port itself. -/
def Obligations.InputsReadOnlyByTheirCommands : Prop :=
  ∀ (z : Sizes) (i : Instr) (s : Block z) (p : Pins z),
    (i = .configure → p.cfg = s.pins.cfg) → (i = .scanTick → p.tickIn = s.pins.tickIn) →
    (i = .scanTick ∨ (∃ now, i = .scan now) → p.colPressed = s.pins.colPressed) →
    ∃ o : Host.Outcome (Block z) Fault Refusal,
      exec i ⟨z, s⟩ = inState o ∧
      exec i ⟨z, { s with pins := p }⟩ = inState (mapNext (fun t => { t with pins := p }) o)

/-- R8: the static parameters do not change at run time, by no command and in no step. -/
def Obligations.SizesNeverChange : Prop :=
  (∀ (i : Instr) (s t : State), exec i s = .next t → t.sizes = s.sizes) ∧
  ∀ s t : State, step s = .next t → t.sizes = s.sizes

/-- The invariant holds after power-on reset, at any allowed sizes, and so at the defaults. -/
def Obligations.InvariantAtReset : Prop :=
  (∀ z : Sizes, z.wf = true → (State.resetOf z).Inv) ∧ State.reset.Inv

/-- R23, R24, R27, R29, R31, R33, R34, R35, R36, R73, R82: every step, whatever stands at the ports, keeps the
block in a legal state. -/
def Obligations.EveryStepKeepsInvariant : Prop :=
  ∀ s t : State, s.Inv → step s = .next t → t.Inv

/-- R210: from a legal state every step completes, whatever stands at the ports: no fault and no refusal. -/
def Obligations.NoStepStopsFromLegalState : Prop := ∀ s : State, s.Inv → ∃ t, step s = .next t

/-- R210: a block with a legal state, and so one after power-on reset, runs for ever on any inputs. -/
def Obligations.RunsNeverStop : Prop :=
  ∀ (s : State) (ps : List (Pins s.sizes)) (n : Nat), s.Inv →
    ∃ t, runSteps n ⟨s.sizes, { s.block with pending := ps }⟩ = some t ∧ t.Inv ∧ t.sizes = s.sizes

/-- R40, R193, R30, R38(a), U1 to U4: what the spec leaves unspecified cannot be observed: two legal states that
differ in nothing else answer every step alike, with the same response, outputs and trace, and the
states after it again differ in nothing else. -/
def Obligations.UnspecifiedStateIsUnobservable : Prop :=
  ∀ (z : Sizes) (s₁ s₂ t₁ t₂ : Block z), s₁.Inv → s₂.Inv → s₁.Agree s₂ →
    step ⟨z, s₁⟩ = .next ⟨z, t₁⟩ → step ⟨z, s₂⟩ = .next ⟨z, t₂⟩ → t₁.Agree t₂
end

