-- ==== Sys2Proof/Laws/Config.lean ====
section
/-! SUPPORT. Laws/Config.lean: what `clog2` is (00_scope.md R11), that every derived width holds what it is
there for (R8), and the widths at the defaults. -/

namespace Sys2Proof.Laws

open Sys2Proof

theorem le_two_pow_clog2 (n : Nat) : n ≤ 2 ^ clog2 n := by
  unfold clog2
  split
  · simpa using ‹n ≤ 1›
  · have h := Nat.lt_log2_self (n := n - 1)
    omega

/-- `clog2 n` is the least `k` with `n ≤ 2 ^ k`. -/
theorem clog2_least {n k : Nat} (h : n ≤ 2 ^ k) : clog2 n ≤ k := by
  unfold clog2
  split
  · exact Nat.zero_le k
  · have hlt : Nat.log2 (n - 1) < k := (Nat.log2_lt (by omega)).mpr (by omega)
    omega

/-- A key index names every cell of the table. -/
theorem maxCells_le (z : Sizes) : z.maxCells ≤ 2 ^ z.idxW :=
  Nat.le_trans (le_two_pow_clog2 _) (Nat.pow_le_pow_right (by decide) (Nat.le_max_right _ _))

/-- A queue index names every slot of the buffer. -/
theorem maxQ_le (z : Sizes) : z.maxQ ≤ 2 ^ z.qidxW :=
  Nat.le_trans (le_two_pow_clog2 _) (Nat.pow_le_pow_right (by decide) (Nat.le_max_right _ _))

/-- The count of a scan has room for one full put of every cell (41_scan.md R131). -/
theorem maxCells_lt (z : Sizes) : z.maxCells < 2 ^ z.cntW := le_two_pow_clog2 (z.maxCells + 1)

/-- The numbers that 00_scope.md R8 gives "with the defaults". -/
theorem default_widths :
    Sizes.defaults.maxCells = 256 ∧ Sizes.defaults.idxW = 8 ∧ Sizes.defaults.actW = 11 ∧
      Sizes.defaults.qidxW = 6 ∧ Sizes.defaults.rowW = 5 ∧ Sizes.defaults.colW = 5 ∧
      Sizes.defaults.lenW = 9 ∧ Sizes.defaults.qcapW = 7 ∧ Sizes.defaults.cntW = 9 := by
  decide +kernel

theorem defaults_wf : Sizes.defaults.wf = true := by decide

end Sys2Proof.Laws
end

