-- ==== Sys2Proof/Laws/Arrays.lean ====
section
/-! SUPPORT. Laws/Arrays.lean: an element read after a write is the element written, and every other
element stays. -/

namespace Sys2Proof.Laws

open Sys2Proof Sys2Proof.Machine

section Elements

variable {α : Type} {n : Nat}

theorem elemAt_of_lt (d : α) (v : Vector α n) {k : Nat} (h : k < n) : elemAt d v k = v[k] := dif_pos h

theorem elemSet_of_lt (v : Vector α n) {k : Nat} (a : α) (h : k < n) : elemSet v k a = v.set k a h := dif_pos h

theorem elemAt_elemSet_same (d : α) (v : Vector α n) {k : Nat} (a : α) (h : k < n) :
    elemAt d (elemSet v k a) k = a := by
  simp [elemAt, elemSet, h]

theorem elemAt_elemSet_ne (d : α) (v : Vector α n) {k l : Nat} (a : α) (h : k ≠ l) :
    elemAt d (elemSet v k a) l = elemAt d v l := by
  unfold elemAt elemSet
  by_cases hk : k < n
  · by_cases hl : l < n <;> simp [hk, hl, h]
  · simp [hk]

theorem elemAt_ofFn (d : α) (f : Fin n → α) {k : Nat} (h : k < n) : elemAt d (Vector.ofFn f) k = f ⟨k, h⟩ := by
  simp [elemAt, h]

end Elements

variable {z : Sizes}

theorem keyIndex_eq_of_toNat {i j : KeyIndex z} (h : i.toNat = j.toNat) : i = j := BitVec.eq_of_toNat_eq h

/-- The index of a cell of the table reads back (00_scope.md R8). -/
theorem keyIndex_toNat_ofNat {n : Nat} (h : n < z.maxCells) : (BitVec.ofNat z.idxW n).toNat = n := by
  rw [BitVec.toNat_ofNat]
  exact Nat.mod_eq_of_lt (Nat.lt_of_lt_of_le h (maxCells_le z))

/-- The index of a slot of the buffer reads back (00_scope.md R8). -/
theorem qIndex_toNat_ofNat {n : Nat} (h : n < z.maxQ) : (BitVec.ofNat z.qidxW n).toNat = n := by
  rw [BitVec.toNat_ofNat]
  exact Nat.mod_eq_of_lt (Nat.lt_of_lt_of_le h (maxQ_le z))

theorem cellAt_cellSet_same (v : Vector (Cell z) z.maxCells) {i : KeyIndex z} (c : Cell z)
    (h : i.toNat < z.maxCells) : cellAt (cellSet v i c) i = c :=
  elemAt_elemSet_same _ v c h

theorem cellAt_cellSet_ne (v : Vector (Cell z) z.maxCells) {i j : KeyIndex z} (c : Cell z) (h : i ≠ j) :
    cellAt (cellSet v i c) j = cellAt v j :=
  elemAt_elemSet_ne _ v c fun e => h (keyIndex_eq_of_toNat e)

theorem cellAt_cellSet (v : Vector (Cell z) z.maxCells) {i : KeyIndex z} (j : KeyIndex z) (c : Cell z)
    (h : i.toNat < z.maxCells) : cellAt (cellSet v i c) j = if i = j then c else cellAt v j := by
  split
  · subst j; exact cellAt_cellSet_same v c h
  · exact cellAt_cellSet_ne v c ‹_›

/-- Two cell tables with equal elements are equal. -/
theorem cells_ext {v w : Vector (Cell z) z.maxCells}
    (h : ∀ i : KeyIndex z, i.toNat < z.maxCells → cellAt v i = cellAt w i) : v = w := by
  apply Vector.ext
  intro n hn
  have hi := keyIndex_toNat_ofNat hn
  have := h (BitVec.ofNat z.idxW n) (by rw [hi]; exact hn)
  unfold cellAt at this
  rwa [hi, elemAt_of_lt _ _ hn, elemAt_of_lt _ _ hn] at this

theorem cellAt_ofFn (f : Fin z.maxCells → Cell z) {i : KeyIndex z} (h : i.toNat < z.maxCells) :
    cellAt (Vector.ofFn f) i = f ⟨i.toNat, h⟩ :=
  elemAt_ofFn _ f h

theorem mapAt_ofFn (f : Fin z.maxCells → KeyChar) {i : KeyIndex z} (h : i.toNat < z.maxCells) :
    mapAt (Vector.ofFn f) i = f ⟨i.toNat, h⟩ :=
  elemAt_ofFn _ f h

theorem slotAt_slotSet_same (b : Vector (ActWord z) z.maxQ) {k : QIndex z} (a : ActWord z)
    (h : k.toNat < z.maxQ) : slotAt (slotSet b k a) k = a :=
  elemAt_elemSet_same _ b a h

theorem slotAt_slotSet_ne (b : Vector (ActWord z) z.maxQ) {k l : QIndex z} (a : ActWord z) (h : k ≠ l) :
    slotAt (slotSet b k a) l = slotAt b l :=
  elemAt_elemSet_ne _ b a fun e => h (BitVec.eq_of_toNat_eq e)

/-- The flattened index of a built matrix does not wrap, and names a cell in use (20_memory.md R51). -/
theorem flatIndex_toNat (g : ConfigRegs z) {r c : Nat} (hr : g.rows.toNat ≤ z.maxRows)
    (hc : g.cols.toNat ≤ z.maxCols) (hr' : r < g.rows.toNat) (hc' : c < g.cols.toNat) :
    (flatIndex g r c).toNat = r * g.cols.toNat + c ∧ r * g.cols.toNat + c < g.ncells ∧
      g.ncells ≤ z.maxCells := by
  have hlt : r * g.cols.toNat + c < g.ncells := by
    calc r * g.cols.toNat + c < r * g.cols.toNat + g.cols.toNat := by omega
      _ = (r + 1) * g.cols.toNat := by rw [Nat.add_mul, Nat.one_mul]
      _ ≤ g.rows.toNat * g.cols.toNat := Nat.mul_le_mul_right _ hr'
  have hle : g.ncells ≤ z.maxCells := Nat.mul_le_mul hr hc
  exact ⟨keyIndex_toNat_ofNat (Nat.lt_of_lt_of_le hlt hle), hlt, hle⟩

end Sys2Proof.Laws
end

