-- ==== Sys2Proof/Laws/Formats.lean ====
section
/-! SUPPORT. Laws/Formats.lean: what reading and writing each code can do. -/

namespace Sys2Proof.Laws

open Sys2Proof

/-! ## Cell states -/

@[simp] theorem cellState_ofCode?_code (st : CellState) : CellState.ofCode? st.code = some st := by
  cases st <;> rfl

@[simp] theorem cellState_code_wf (st : CellState) : cellStateBitsWf st.code = true := by
  cases st <;> rfl

theorem cellState_code_released_iff (st : CellState) :
    st.code = CellState.released.code ↔ st = .released := by
  cases st <;> decide

theorem cellState_ofCode?_eq_none_iff (b : BitVec 3) : CellState.ofCode? b = none ↔ 5 ≤ b.toNat := by
  revert b; decide

theorem cellState_ofCode?_eq_some_iff (b : BitVec 3) (st : CellState) :
    CellState.ofCode? b = some st ↔ b = st.code := by
  revert b; cases st <;> decide

theorem cellState_ofCode?_isSome_of_wf (b : BitVec 3) (h : cellStateBitsWf b = true) :
    ∃ st, CellState.ofCode? b = some st := by
  cases hs : CellState.ofCode? b with
  | some st => exact ⟨st, rfl⟩
  | none =>
    have := (cellState_ofCode?_eq_none_iff b).mp hs
    simp [cellStateBitsWf] at h
    omega

/-! ## Kinds -/

@[simp] theorem kind_ofCode?_code (k : Kind) : Kind.ofCode? k.code = some k := by
  cases k <;> rfl

@[simp] theorem kind_code_wf (k : Kind) : kindBitsWf k.code = true := by
  cases k <;> rfl

theorem kind_ofCode?_eq_none_iff (b : BitVec 2) : Kind.ofCode? b = none ↔ b = 3#2 := by
  revert b; decide

theorem kind_ofCode?_eq_some_iff (b : BitVec 2) (k : Kind) : Kind.ofCode? b = some k ↔ b = k.code := by
  revert b; cases k <;> decide

/-! ## Policies -/

@[simp] theorem policy_ofCode_code (p : Policy) : Policy.ofCode p.code = p := by
  cases p <;> rfl

theorem policy_ofCode_eq_iff (b : BitVec 2) (p : Policy) : Policy.ofCode b = p ↔ b = p.code := by
  revert b; cases p <;> decide

/-! ## Result codes -/

@[simp] theorem status_code_wf (st : Status) : statusBitsWf st.code = true := by
  cases st <;> rfl

@[simp] theorem cfgError_code_wf (e : CfgError) : cfgErrBitsWf e.code = true := by
  cases e <;> rfl

end Sys2Proof.Laws
end

