-- ==== Sys2Proof/Laws/State.lean ====
section
/-! SUPPORT. Laws/State.lean: what each update of a block leaves in each of its fields, and what the wrapping
of a block in `State` does. Later proofs rewrite by these and unfold no record update. -/

namespace Sys2Proof.Laws

open Sys2Proof Sys2Proof.Machine

variable {z : Sizes}

/-! ## respond -/
@[simp] theorem respond_ready (r : Response z) (s : Block z) : (respond r s).ready = s.ready := rfl
@[simp] theorem respond_cfgErr (r : Response z) (s : Block z) : (respond r s).cfgErr = s.cfgErr := rfl
@[simp] theorem respond_cfg (r : Response z) (s : Block z) : (respond r s).cfg = s.cfg := rfl
@[simp] theorem respond_cells (r : Response z) (s : Block z) : (respond r s).cells = s.cells := rfl
@[simp] theorem respond_queue (r : Response z) (s : Block z) : (respond r s).queue = s.queue := rfl
@[simp] theorem respond_latch (r : Response z) (s : Block z) : (respond r s).latch = s.latch := rfl
@[simp] theorem respond_rowActive (r : Response z) (s : Block z) : (respond r s).rowActive = s.rowActive := rfl
@[simp] theorem respond_shiftInd (r : Response z) (s : Block z) : (respond r s).shiftInd = s.shiftInd := rfl
@[simp] theorem respond_rsp (r : Response z) (s : Block z) : (respond r s).rsp = some r := rfl
@[simp] theorem respond_pins (r : Response z) (s : Block z) : (respond r s).pins = s.pins := rfl
@[simp] theorem respond_pending (r : Response z) (s : Block z) : (respond r s).pending = s.pending := rfl
@[simp] theorem respond_trace (r : Response z) (s : Block z) : (respond r s).trace = s.trace := rfl
@[simp] theorem respond_draws (r : Response z) (s : Block z) : (respond r s).draws = s.draws := rfl

/-! ## syncInd -/
@[simp] theorem syncInd_ready (s : Block z) : (syncInd s).ready = s.ready := rfl
@[simp] theorem syncInd_cfgErr (s : Block z) : (syncInd s).cfgErr = s.cfgErr := rfl
@[simp] theorem syncInd_cfg (s : Block z) : (syncInd s).cfg = s.cfg := rfl
@[simp] theorem syncInd_cells (s : Block z) : (syncInd s).cells = s.cells := rfl
@[simp] theorem syncInd_queue (s : Block z) : (syncInd s).queue = s.queue := rfl
@[simp] theorem syncInd_latch (s : Block z) : (syncInd s).latch = s.latch := rfl
@[simp] theorem syncInd_rowActive (s : Block z) : (syncInd s).rowActive = s.rowActive := rfl
@[simp] theorem syncInd_shiftInd (s : Block z) :
    (syncInd s).shiftInd = (s.ready && s.cfg.indPresent && s.latch) := rfl
@[simp] theorem syncInd_rsp (s : Block z) : (syncInd s).rsp = s.rsp := rfl
@[simp] theorem syncInd_pins (s : Block z) : (syncInd s).pins = s.pins := rfl
@[simp] theorem syncInd_pending (s : Block z) : (syncInd s).pending = s.pending := rfl
@[simp] theorem syncInd_trace (s : Block z) : (syncInd s).trace = s.trace := rfl
@[simp] theorem syncInd_draws (s : Block z) : (syncInd s).draws = s.draws := rfl

/-! ## setLatch -/
@[simp] theorem setLatch_ready (b : Bool) (s : Block z) : (setLatch b s).ready = s.ready := rfl
@[simp] theorem setLatch_cfgErr (b : Bool) (s : Block z) : (setLatch b s).cfgErr = s.cfgErr := rfl
@[simp] theorem setLatch_cfg (b : Bool) (s : Block z) : (setLatch b s).cfg = s.cfg := rfl
@[simp] theorem setLatch_cells (b : Bool) (s : Block z) : (setLatch b s).cells = s.cells := rfl
@[simp] theorem setLatch_queue (b : Bool) (s : Block z) : (setLatch b s).queue = s.queue := rfl
@[simp] theorem setLatch_latch (b : Bool) (s : Block z) : (setLatch b s).latch = b := rfl
@[simp] theorem setLatch_rowActive (b : Bool) (s : Block z) : (setLatch b s).rowActive = s.rowActive := rfl
@[simp] theorem setLatch_shiftInd (b : Bool) (s : Block z) : (setLatch b s).shiftInd = (s.ready && s.cfg.indPresent && b) := rfl
@[simp] theorem setLatch_rsp (b : Bool) (s : Block z) : (setLatch b s).rsp = s.rsp := rfl
@[simp] theorem setLatch_pins (b : Bool) (s : Block z) : (setLatch b s).pins = s.pins := rfl
@[simp] theorem setLatch_pending (b : Bool) (s : Block z) : (setLatch b s).pending = s.pending := rfl
@[simp] theorem setLatch_trace (b : Bool) (s : Block z) : (setLatch b s).trace = s.trace := rfl
@[simp] theorem setLatch_draws (b : Bool) (s : Block z) : (setLatch b s).draws = s.draws := rfl

/-! ## logEvent -/
@[simp] theorem logEvent_ready (e : Event z) (s : Block z) : (logEvent e s).ready = s.ready := rfl
@[simp] theorem logEvent_cfgErr (e : Event z) (s : Block z) : (logEvent e s).cfgErr = s.cfgErr := rfl
@[simp] theorem logEvent_cfg (e : Event z) (s : Block z) : (logEvent e s).cfg = s.cfg := rfl
@[simp] theorem logEvent_cells (e : Event z) (s : Block z) : (logEvent e s).cells = s.cells := rfl
@[simp] theorem logEvent_queue (e : Event z) (s : Block z) : (logEvent e s).queue = s.queue := rfl
@[simp] theorem logEvent_latch (e : Event z) (s : Block z) : (logEvent e s).latch = s.latch := rfl
@[simp] theorem logEvent_rowActive (e : Event z) (s : Block z) : (logEvent e s).rowActive = s.rowActive := rfl
@[simp] theorem logEvent_shiftInd (e : Event z) (s : Block z) : (logEvent e s).shiftInd = s.shiftInd := rfl
@[simp] theorem logEvent_rsp (e : Event z) (s : Block z) : (logEvent e s).rsp = s.rsp := rfl
@[simp] theorem logEvent_pins (e : Event z) (s : Block z) : (logEvent e s).pins = s.pins := rfl
@[simp] theorem logEvent_pending (e : Event z) (s : Block z) : (logEvent e s).pending = s.pending := rfl
@[simp] theorem logEvent_trace (e : Event z) (s : Block z) : (logEvent e s).trace = s.trace ++ [e] := rfl
@[simp] theorem logEvent_draws (e : Event z) (s : Block z) : (logEvent e s).draws = s.draws := rfl

/-! ## driveRow -/
@[simp] theorem driveRow_ready (r : Nat) (b : Bool) (s : Block z) : (driveRow r b s).ready = s.ready := rfl
@[simp] theorem driveRow_cfgErr (r : Nat) (b : Bool) (s : Block z) : (driveRow r b s).cfgErr = s.cfgErr := rfl
@[simp] theorem driveRow_cfg (r : Nat) (b : Bool) (s : Block z) : (driveRow r b s).cfg = s.cfg := rfl
@[simp] theorem driveRow_cells (r : Nat) (b : Bool) (s : Block z) : (driveRow r b s).cells = s.cells := rfl
@[simp] theorem driveRow_queue (r : Nat) (b : Bool) (s : Block z) : (driveRow r b s).queue = s.queue := rfl
@[simp] theorem driveRow_latch (r : Nat) (b : Bool) (s : Block z) : (driveRow r b s).latch = s.latch := rfl
@[simp] theorem driveRow_rowActive (r : Nat) (b : Bool) (s : Block z) :
    (driveRow r b s).rowActive = (if b then s.rowActive ||| BitVec.twoPow z.maxRows r
      else s.rowActive &&& ~~~(BitVec.twoPow z.maxRows r)) := rfl
@[simp] theorem driveRow_shiftInd (r : Nat) (b : Bool) (s : Block z) : (driveRow r b s).shiftInd = s.shiftInd := rfl
@[simp] theorem driveRow_rsp (r : Nat) (b : Bool) (s : Block z) : (driveRow r b s).rsp = s.rsp := rfl
@[simp] theorem driveRow_pins (r : Nat) (b : Bool) (s : Block z) : (driveRow r b s).pins = s.pins := rfl
@[simp] theorem driveRow_pending (r : Nat) (b : Bool) (s : Block z) : (driveRow r b s).pending = s.pending := rfl
@[simp] theorem driveRow_trace (r : Nat) (b : Bool) (s : Block z) : (driveRow r b s).trace = s.trace ++ [.row r b] := rfl
@[simp] theorem driveRow_draws (r : Nat) (b : Bool) (s : Block z) : (driveRow r b s).draws = s.draws := rfl

/-! ## emit -/
@[simp] theorem emit_ready (i : KeyIndex z) (k : Kind) (s : Block z) :
    (emit i k s).1.ready = s.ready := rfl
@[simp] theorem emit_cfgErr (i : KeyIndex z) (k : Kind) (s : Block z) :
    (emit i k s).1.cfgErr = s.cfgErr := rfl
@[simp] theorem emit_cfg (i : KeyIndex z) (k : Kind) (s : Block z) :
    (emit i k s).1.cfg = s.cfg := rfl
@[simp] theorem emit_cells (i : KeyIndex z) (k : Kind) (s : Block z) :
    (emit i k s).1.cells = s.cells := rfl
@[simp] theorem emit_queue (i : KeyIndex z) (k : Kind) (s : Block z) :
    (emit i k s).1.queue = (qPut s.qcap (packAction i s.latch k) s.queue).1 := rfl
@[simp] theorem emit_latch (i : KeyIndex z) (k : Kind) (s : Block z) :
    (emit i k s).1.latch = s.latch := rfl
@[simp] theorem emit_rowActive (i : KeyIndex z) (k : Kind) (s : Block z) :
    (emit i k s).1.rowActive = s.rowActive := rfl
@[simp] theorem emit_shiftInd (i : KeyIndex z) (k : Kind) (s : Block z) :
    (emit i k s).1.shiftInd = s.shiftInd := rfl
@[simp] theorem emit_rsp (i : KeyIndex z) (k : Kind) (s : Block z) :
    (emit i k s).1.rsp = s.rsp := rfl
@[simp] theorem emit_pins (i : KeyIndex z) (k : Kind) (s : Block z) :
    (emit i k s).1.pins = s.pins := rfl
@[simp] theorem emit_pending (i : KeyIndex z) (k : Kind) (s : Block z) :
    (emit i k s).1.pending = s.pending := rfl
@[simp] theorem emit_trace (i : KeyIndex z) (k : Kind) (s : Block z) :
    (emit i k s).1.trace = s.trace ++ [.put (packAction i s.latch k) (qPut s.qcap (packAction i s.latch k) s.queue).2] := rfl
@[simp] theorem emit_draws (i : KeyIndex z) (k : Kind) (s : Block z) :
    (emit i k s).1.draws = s.draws := rfl
@[simp] theorem emit_full (i : KeyIndex z) (k : Kind) (s : Block z) :
    (emit i k s).2 = (qPut s.qcap (packAction i s.latch k) s.queue).2 := rfl

/-! ## unspecify -/
@[simp] theorem unspecify_ready (s : Block z) : (unspecify s).ready = s.ready := rfl
@[simp] theorem unspecify_cfgErr (s : Block z) : (unspecify s).cfgErr = s.cfgErr := rfl
@[simp] theorem unspecify_cfg (s : Block z) : (unspecify s).cfg = freeConfig s.draws := rfl
@[simp] theorem unspecify_cells (s : Block z) : (unspecify s).cells = freeCells s.draws := rfl
@[simp] theorem unspecify_queue (s : Block z) : (unspecify s).queue = freeQueue s.draws := rfl
@[simp] theorem unspecify_latch (s : Block z) : (unspecify s).latch = s.latch := rfl
@[simp] theorem unspecify_rowActive (s : Block z) : (unspecify s).rowActive = s.rowActive := rfl
@[simp] theorem unspecify_shiftInd (s : Block z) : (unspecify s).shiftInd = s.shiftInd := rfl
@[simp] theorem unspecify_rsp (s : Block z) : (unspecify s).rsp = s.rsp := rfl
@[simp] theorem unspecify_pins (s : Block z) : (unspecify s).pins = s.pins := rfl
@[simp] theorem unspecify_pending (s : Block z) : (unspecify s).pending = s.pending := rfl
@[simp] theorem unspecify_trace (s : Block z) : (unspecify s).trace = s.trace := rfl
@[simp] theorem unspecify_draws (s : Block z) : (unspecify s).draws = s.draws + 1 := rfl

/-! ## powerOnReset -/
@[simp] theorem powerOnReset_ready (s : Block z) : (powerOnReset s).ready = false := rfl
@[simp] theorem powerOnReset_cfgErr (s : Block z) : (powerOnReset s).cfgErr = 0 := rfl
@[simp] theorem powerOnReset_cfg (s : Block z) : (powerOnReset s).cfg = freeConfig s.draws := rfl
@[simp] theorem powerOnReset_cells (s : Block z) : (powerOnReset s).cells = freeCells s.draws := rfl
@[simp] theorem powerOnReset_queue (s : Block z) : (powerOnReset s).queue = freeQueue s.draws := rfl
@[simp] theorem powerOnReset_latch (s : Block z) : (powerOnReset s).latch = false := rfl
@[simp] theorem powerOnReset_rowActive (s : Block z) : (powerOnReset s).rowActive = 0 := rfl
@[simp] theorem powerOnReset_shiftInd (s : Block z) : (powerOnReset s).shiftInd = false := rfl
@[simp] theorem powerOnReset_rsp (s : Block z) : (powerOnReset s).rsp = none := rfl
@[simp] theorem powerOnReset_pins (s : Block z) : (powerOnReset s).pins = s.pins := rfl
@[simp] theorem powerOnReset_pending (s : Block z) : (powerOnReset s).pending = s.pending := rfl
@[simp] theorem powerOnReset_trace (s : Block z) : (powerOnReset s).trace = s.trace := rfl
@[simp] theorem powerOnReset_draws (s : Block z) : (powerOnReset s).draws = s.draws + 1 := rfl

/-! ## accept -/
@[simp] theorem accept_ready (s : Block z) : (accept s).ready = s.ready := rfl
@[simp] theorem accept_cfgErr (s : Block z) : (accept s).cfgErr = s.cfgErr := rfl
@[simp] theorem accept_cfg (s : Block z) : (accept s).cfg = s.cfg := rfl
@[simp] theorem accept_cells (s : Block z) : (accept s).cells = s.cells := rfl
@[simp] theorem accept_queue (s : Block z) : (accept s).queue = s.queue := rfl
@[simp] theorem accept_latch (s : Block z) : (accept s).latch = s.latch := rfl
@[simp] theorem accept_rowActive (s : Block z) : (accept s).rowActive = s.rowActive := rfl
@[simp] theorem accept_shiftInd (s : Block z) : (accept s).shiftInd = s.shiftInd := rfl
@[simp] theorem accept_rsp (s : Block z) : (accept s).rsp = none := rfl
@[simp] theorem accept_pins (s : Block z) : (accept s).pins = s.pins := rfl
@[simp] theorem accept_pending (s : Block z) : (accept s).pending = s.pending := rfl
@[simp] theorem accept_trace (s : Block z) : (accept s).trace = [] := rfl
@[simp] theorem accept_draws (s : Block z) : (accept s).draws = s.draws := rfl

/-! ## advance: only the ports move -/
@[simp] theorem advance_ready (s : Block z) : (advance s).ready = s.ready := by
  unfold advance; split <;> rfl
@[simp] theorem advance_cfgErr (s : Block z) : (advance s).cfgErr = s.cfgErr := by
  unfold advance; split <;> rfl
@[simp] theorem advance_cfg (s : Block z) : (advance s).cfg = s.cfg := by
  unfold advance; split <;> rfl
@[simp] theorem advance_cells (s : Block z) : (advance s).cells = s.cells := by
  unfold advance; split <;> rfl
@[simp] theorem advance_queue (s : Block z) : (advance s).queue = s.queue := by
  unfold advance; split <;> rfl
@[simp] theorem advance_latch (s : Block z) : (advance s).latch = s.latch := by
  unfold advance; split <;> rfl
@[simp] theorem advance_rowActive (s : Block z) : (advance s).rowActive = s.rowActive := by
  unfold advance; split <;> rfl
@[simp] theorem advance_shiftInd (s : Block z) : (advance s).shiftInd = s.shiftInd := by
  unfold advance; split <;> rfl
@[simp] theorem advance_rsp (s : Block z) : (advance s).rsp = s.rsp := by
  unfold advance; split <;> rfl
@[simp] theorem advance_trace (s : Block z) : (advance s).trace = s.trace := by
  unfold advance; split <;> rfl
@[simp] theorem advance_draws (s : Block z) : (advance s).draws = s.draws := by
  unfold advance; split <;> rfl

theorem advance_pins_idle (s : Block z) (h : s.pending = []) :
    (advance s).pins = { s.pins with rstN := true, cmdValid := false } ∧ (advance s).pending = [] := by
  simp [advance, h]

theorem advance_pins_next (s : Block z) (p : Pins z) (ps : List (Pins z)) (h : s.pending = p :: ps) :
    (advance s).pins = p ∧ (advance s).pending = ps := by
  simp [advance, h]

/-! ## The machine around the block -/

@[simp] theorem mapNext_next {α β : Type} (f : α → β) (s : α) : mapNext f (.next s) = .next (f s) := rfl
@[simp] theorem mapNext_fault {α β : Type} (f : α → β) (r : Fault) : mapNext f (.fault r) = .fault r := rfl
@[simp] theorem mapNext_refused {α β : Type} (f : α → β) (r : Refusal) :
    mapNext f (.refused r) = .refused r := rfl

/-- An outcome under `f` that is a next state comes from one. -/
theorem mapNext_eq_next {α β : Type} {f : α → β} {o : Host.Outcome α Fault Refusal} {t : β}
    (h : mapNext f o = .next t) : ∃ s, o = .next s ∧ t = f s := by
  cases o with
  | next s => exact ⟨s, rfl, by injection h with h; exact h.symm⟩
  | fault r => cases h
  | refused r => cases h

@[simp] theorem inState_next (s : Block z) : inState (.next s) = .next ⟨z, s⟩ := rfl
@[simp] theorem inState_fault (r : Fault) : inState (.fault r : Host.Outcome (Block z) Fault Refusal) = .fault r :=
  rfl

/-- What a block does as a machine, when it answers a next state: the sizes stay. -/
theorem inState_eq_next {o : Host.Outcome (Block z) Fault Refusal} {t : State} (h : inState o = .next t) :
    ∃ b : Block z, o = .next b ∧ t = ⟨z, b⟩ :=
  mapNext_eq_next h

theorem inState_eq_next_iff {o : Host.Outcome (Block z) Fault Refusal} {b : Block z} :
    inState o = .next ⟨z, b⟩ ↔ o = .next b := by
  refine ⟨fun h => ?_, fun h => by rw [h]; rfl⟩
  obtain ⟨c, hc, e⟩ := inState_eq_next h
  cases e
  exact hc

@[simp] theorem portsMoved_mk (s : Block z) : portsMoved ⟨z, s⟩ = ⟨z, advance s⟩ := rfl

/-! ## Derived readings of the configuration -/

@[simp] theorem ncells_def (s : Block z) : s.ncells = s.cfg.ncells := rfl

@[simp] theorem policy_def (s : Block z) : s.policy = s.cfg.policyName := rfl

@[simp] theorem qcap_def (s : Block z) : s.qcap = s.cfg.qcap.toNat := rfl

end Sys2Proof.Laws
end

