-- ==== Sys2Proof/Laws/Ops.lean ====
section
/-! SUPPORT. Laws/Ops.lean: for each shared operation, once, everything it can do. A proof cites these and
does not unfold the operation. -/

namespace Sys2Proof.Laws

open Sys2Proof Sys2Proof.Machine

variable {z : Sizes}

/-! ## The READY test -/

theorem whenReady_of_ready {s : Block z} (h : s.ready = true) (o : Host.Outcome (Block z) Fault Refusal) :
    whenReady s o = o := by
  simp [whenReady, h]

theorem whenReady_of_not_ready {s : Block z} (h : s.ready = false) (o : Host.Outcome (Block z) Fault Refusal) :
    whenReady s o = .next (respondNotReady s) := by
  simp [whenReady, h]

/-- A gated command that answers a next state was refused, or its action answered that state. -/
theorem whenReady_next {s t : Block z} {o : Host.Outcome (Block z) Fault Refusal} (h : whenReady s o = .next t) :
    (s.ready = false ∧ t = respondNotReady s) ∨ (s.ready = true ∧ o = .next t) := by
  cases hr : s.ready with
  | false => rw [whenReady_of_not_ready hr] at h; exact .inl ⟨rfl, by injection h with h; exact h.symm⟩
  | true => rw [whenReady_of_ready hr] at h; exact .inr ⟨rfl, h⟩

/-! ## The queue -/

/-- `Q_PUT` writes the slot at `QIN` and advances it; when the indices then meet it advances `QOUT` too and
reports full (42_queue.md R140). -/
theorem qPut_cases (cap : Nat) (a : ActWord z) (q : Queue z) :
    (qNext cap q.qin ≠ q.qout ∧
        qPut cap a q = (⟨slotSet q.buf q.qin a, qNext cap q.qin, q.qout⟩, false)) ∨
      (qNext cap q.qin = q.qout ∧
        qPut cap a q = (⟨slotSet q.buf q.qin a, qNext cap q.qin, qNext cap q.qout⟩, true)) := by
  unfold qPut
  split
  · exact .inr ⟨‹_›, rfl⟩
  · exact .inl ⟨‹_›, rfl⟩

/-- `Q_GET` on a queue that is not empty (42_queue.md R141). -/
theorem qGet_some {cap : Nat} {q q' : Queue z} {a : ActWord z} (h : qGet cap q = some (a, q')) :
    q.qin ≠ q.qout ∧ a = slotAt q.buf q.qout ∧ q' = { q with qout := qNext cap q.qout } := by
  unfold qGet at h
  split at h
  · cases h
  · simp only [Option.some.injEq, Prod.mk.injEq] at h
    exact ⟨‹_›, h.1.symm, h.2.symm⟩

theorem qGet_eq_none_iff (cap : Nat) (q : Queue z) : qGet cap q = none ↔ q.qin = q.qout := by
  unfold qGet; split <;> simp_all

theorem qGet_of_ne {cap : Nat} {q : Queue z} (h : q.qin ≠ q.qout) :
    qGet cap q = some (slotAt q.buf q.qout, { q with qout := qNext cap q.qout }) := by
  simp [qGet, h]

@[simp] theorem qClear_buf (q : Queue z) : (qClear q).buf = q.buf := rfl
@[simp] theorem qClear_qin (q : Queue z) : (qClear q).qin = 0 := rfl
@[simp] theorem qClear_qout (q : Queue z) : (qClear q).qout = 0 := rfl

/-! ## CELL_STEP -/

/-- What CELL_STEP can do: fault on a code of 5 to 7, or write the cell's transition (40_cell_fsm.md R96). -/
theorem cellStep_cases (i : KeyIndex z) (held : Bool) (now : Tick z) (s : Block z) :
    (CellState.ofCode? (cellAt s.cells i).st = none ∧
        cellStep i held now s = .error (.badCellState i.toNat (cellAt s.cells i).st)) ∨
      ∃ st, CellState.ofCode? (cellAt s.cells i).st = some st ∧
        cellStep i held now s =
          .ok (writeCell i
            (cellNext s.cfg.debounce s.cfg.rdelay s.cfg.rtime st (cellAt s.cells i).next held now) s) := by
  unfold cellStep
  cases h : CellState.ofCode? (cellAt s.cells i).st with
  | none => exact .inl ⟨rfl, rfl⟩
  | some st => exact .inr ⟨st, rfl, rfl⟩

/-- Writing a cell's transition changes the cell, and with an action the queue and the output trace. -/
theorem writeCell_cases (i : KeyIndex z) (out : CellState × Tick z × Option Kind) (s : Block z) :
    (out.2.2 = none ∧ writeCell i out s = ({ s with cells := cellSet s.cells i ⟨out.1.code, out.2.1⟩ }, false)) ∨
      ∃ k, out.2.2 = some k ∧
        writeCell i out s =
          ({ s with
              cells := cellSet s.cells i ⟨out.1.code, out.2.1⟩
              queue := (qPut s.qcap (packAction i s.latch k) s.queue).1
              trace := s.trace ++
                [.put (packAction i s.latch k) (qPut s.qcap (packAction i s.latch k) s.queue).2] },
            (qPut s.qcap (packAction i s.latch k) s.queue).2) := by
  unfold writeCell
  cases h : out.2.2 with
  | none => exact .inl ⟨rfl, rfl⟩
  | some k => exact .inr ⟨k, rfl, rfl⟩

/-- One visit of the sweep: the fault of its cell step, or the state after it and the count
(41_scan.md R125). -/
theorem visitCell_cases (now : Tick z) (r c : Nat) (x : Block z × FullCount z) :
    (CellState.ofCode? (cellAt x.1.cells (flatIndex x.1.cfg r c)).st = none ∧
      visitCell now r x c =
        .error (.badCellState (flatIndex x.1.cfg r c).toNat (cellAt x.1.cells (flatIndex x.1.cfg r c)).st)) ∨
    ∃ st, CellState.ofCode? (cellAt x.1.cells (flatIndex x.1.cfg r c)).st = some st ∧
      ∃ y, y = writeCell (flatIndex x.1.cfg r c)
          (cellNext x.1.cfg.debounce x.1.cfg.rdelay x.1.cfg.rtime st
            (cellAt x.1.cells (flatIndex x.1.cfg r c)).next (reading x.1.pins r c) now)
          (logEvent (.sample x.1.rowActive r c (reading x.1.pins r c)) x.1) ∧
        visitCell now r x c = .ok (y.1, if y.2 then x.2 + 1 else x.2) := by
  unfold visitCell
  rcases cellStep_cases (flatIndex x.1.cfg r c) (reading x.1.pins r c) now
      (logEvent (.sample x.1.rowActive r c (reading x.1.pins r c)) x.1) with ⟨h, e⟩ | ⟨st, h, e⟩
  · exact .inl ⟨h, by simp only [e, logEvent_cells]⟩
  · exact .inr ⟨st, h, _, rfl, (by simp only [e]; rfl)⟩

/-! ## Scans -/

/-- A scan that completes is a sweep with its response (41_scan.md R125). -/
theorem scanAt_next {now : Tick z} {s t : Block z} (h : scanAt now s = .next t) :
    s.cfg.rows.toNat ≤ z.maxRows ∧ s.cfg.cols.toNat ≤ z.maxCols ∧
      ∃ u cnt, sweep now s = .ok (u, cnt) ∧ t = respond (.scanned cnt) u := by
  unfold scanAt at h
  split at h
  · cases h
  · rename_i hsz
    refine ⟨by omega, by omega, ?_⟩
    split at h
    · cases h
    · rename_i u cnt hsw
      injection h with h
      exact ⟨u, cnt, hsw, h.symm⟩

/-! ## RESOLVE -/

/-- What RESOLVE can do (43_shift.md R164): fault on kind `0b11`, or answer one of five results. -/
theorem resolve_cases (a : ActWord z) (s : Block z) :
    (actKind? a = none ∧ resolve a s = .error (.badActionKind a.toNat)) ∨
    (actKind? a = some .release ∧ s.policy = .hold ∧ isShift s.cfg (actIndex a) = true ∧
      resolve a s = .ok (setLatch false s, none)) ∨
    (actKind? a = some .release ∧ ¬(s.policy = .hold ∧ isShift s.cfg (actIndex a) = true) ∧
      resolve a s = .ok (s, none)) ∨
    ((actKind? a = some .press ∨ actKind? a = some .repeated) ∧ isShift s.cfg (actIndex a) = true ∧
      ∃ b, shiftPressLatch s.policy s.latch = some b ∧ resolve a s = .ok (setLatch b s, none)) ∨
    ((actKind? a = some .press ∨ actKind? a = some .repeated) ∧ isShift s.cfg (actIndex a) = false ∧
      resolve a s =
        .ok (if s.policy = .oneShot then setLatch false s else s, some (keyChar s.cfg s.latch (actIndex a)))) := by
  have hkey : ∀ k, k ≠ Kind.release → actKind? a = some k →
      (isShift s.cfg (actIndex a) = true ∧
        ∃ b, shiftPressLatch s.policy s.latch = some b ∧ resolve a s = .ok (setLatch b s, none)) ∨
      (isShift s.cfg (actIndex a) = false ∧
        resolve a s =
          .ok (if s.policy = .oneShot then setLatch false s else s,
            some (keyChar s.cfg s.latch (actIndex a)))) := by
    intro k hk ha
    cases hsh : isShift s.cfg (actIndex a) with
    | true =>
      refine .inl ⟨rfl, ?_⟩
      have hoff : s.policy ≠ .off := by
        intro h; simp [isShift, show s.cfg.policyName = .off from h] at hsh
      obtain ⟨b, hb⟩ : ∃ b, shiftPressLatch s.policy s.latch = some b := by
        revert hoff; cases s.policy <;> simp [shiftPressLatch]
      exact ⟨b, hb, by cases k <;> simp_all [resolve]⟩
    | false =>
      refine .inr ⟨rfl, ?_⟩
      cases k <;> simp_all [resolve]
  cases ha : actKind? a with
  | none => exact .inl ⟨rfl, by simp [resolve, ha]⟩
  | some k =>
    cases k with
    | release =>
      by_cases h : s.policy = .hold ∧ isShift s.cfg (actIndex a) = true
      · exact .inr (.inl ⟨rfl, h.1, h.2, by simp only [resolve, ha, if_pos h]⟩)
      · exact .inr (.inr (.inl ⟨rfl, h, by simp only [resolve, ha, if_neg h]⟩))
    | press =>
      rcases hkey .press (by simp) ha with h | h
      · exact .inr (.inr (.inr (.inl ⟨.inl rfl, h⟩)))
      · exact .inr (.inr (.inr (.inr ⟨.inl rfl, h⟩)))
    | repeated =>
      rcases hkey .repeated (by simp) ha with h | h
      · exact .inr (.inr (.inr (.inl ⟨.inr rfl, h⟩)))
      · exact .inr (.inr (.inr (.inr ⟨.inr rfl, h⟩)))

/-! ## CONFIGURE -/

/-- A test of `CHECK()` that passes, among those of an accepted configuration (44_configure.md R191). -/
theorem checkConfig_none {c : CfgInputs z} (h : checkConfig c = none) (e : CfgError) : cfgFails c e = false := by
  have hall := List.find?_eq_none.mp h e (by cases e <;> simp [cfgTests])
  simpa using hall

/-- `CONFIGURE` rejects with the code found, or loads (44_configure.md R190). -/
theorem execConfigure_cases (s : Block z) :
    (∃ e, checkConfig s.pins.cfg = some e ∧
      execConfigure ⟨z, s⟩ = .next ⟨z, respond (.cfgRejected e) (rejectConfig e s)⟩) ∨
    (checkConfig s.pins.cfg = none ∧
      execConfigure ⟨z, s⟩ = .next ⟨z, respond (.ofStatus .ok) (acceptConfig s.pins.cfg s)⟩) := by
  unfold execConfigure
  cases h : checkConfig s.pins.cfg with
  | some e => exact .inl ⟨e, rfl, rfl⟩
  | none => exact .inr ⟨rfl, rfl⟩

/-! ## The queue commands and NEXT_KEY, configured -/

/-- The end of `NEXT_ACTION`: the fault of a reserved kind, or the word raw (42_queue.md R144). -/
theorem rawOutcome_cases (a : ActWord z) (s : Block z) :
    (actKindBits a = 3#2 ∧ rawOutcome a s = .fault (.badActionKind a.toNat)) ∨
    (actKindBits a ≠ 3#2 ∧ rawOutcome a s = .next (respond (.rawAction a) s)) := by
  unfold rawOutcome
  cases h : actKind? a with
  | none => exact .inl ⟨(kind_ofCode?_eq_none_iff _).mp h, rfl⟩
  | some k => exact .inr ⟨fun e => by simp [actKind?, (kind_ofCode?_eq_none_iff _).mpr e] at h, rfl⟩

/-- `NEXT_ACTION` ends with the oldest live action, on the state with that action taken (42_queue.md R144). -/
theorem execNextAction_of_ne {s : Block z} (h : s.ready = true) (hq : s.queue.qin ≠ s.queue.qout) :
    execNextAction ⟨z, s⟩ =
      inState (rawOutcome (slotAt s.queue.buf s.queue.qout)
        { s with queue := { s.queue with qout := qNext s.qcap s.queue.qout } }) := by
  unfold execNextAction
  rw [whenReady_of_ready h, qGet_of_ne hq]

theorem execNextAction_of_eq {s : Block z} (h : s.ready = true) (hq : s.queue.qin = s.queue.qout) :
    execNextAction ⟨z, s⟩ = .next ⟨z, respond (.ofStatus .none) s⟩ := by
  unfold execNextAction
  rw [whenReady_of_ready h, (qGet_eq_none_iff _ _).mpr hq]
  rfl

theorem execQueueClear_of_ready {s : Block z} (h : s.ready = true) :
    execQueueClear ⟨z, s⟩ = .next ⟨z, respond (.ofStatus .ok) { s with queue := qClear s.queue }⟩ := by
  unfold execQueueClear
  rw [whenReady_of_ready h]
  rfl

/-- `NEXT_KEY` resolves the oldest live action, on the state with that action taken (43_shift.md R175). -/
theorem execNextKey_of_ne {s : Block z} (h : s.ready = true) (hq : s.queue.qin ≠ s.queue.qout) :
    execNextKey ⟨z, s⟩ =
      inState (keyOutcome (resolve (slotAt s.queue.buf s.queue.qout)
        { s with queue := { s.queue with qout := qNext s.qcap s.queue.qout } })) := by
  unfold execNextKey
  rw [whenReady_of_ready h, qGet_of_ne hq]

theorem execNextKey_of_eq {s : Block z} (h : s.ready = true) (hq : s.queue.qin = s.queue.qout) :
    execNextKey ⟨z, s⟩ = .next ⟨z, respond (.ofStatus .none) s⟩ := by
  unfold execNextKey
  rw [whenReady_of_ready h, (qGet_eq_none_iff _ _).mpr hq]
  rfl

/-! ## The commands at large -/

/-- What every command does is what the block does, with the sizes unchanged (00_scope.md R8). -/
theorem exec_eq_inState (i : Instr) (s : Block z) :
    ∃ o : Host.Outcome (Block z) Fault Refusal, exec i ⟨z, s⟩ = inState o := by
  cases i with
  | nop => exact ⟨_, by rw [exec]; rfl⟩
  | configure => exact ⟨_, by rw [exec]; rfl⟩
  | scan now => exact ⟨_, by rw [exec]; rfl⟩
  | scanTick => exact ⟨_, by rw [exec]; rfl⟩
  | nextKey => exact ⟨_, by rw [exec]; rfl⟩
  | nextAction => exact ⟨_, by rw [exec]; rfl⟩
  | queueClear => exact ⟨_, by rw [exec]; rfl⟩

/-- A scan command is the scan at its timestamp, behind the `READY` test (41_scan.md R125, R132). -/
theorem exec_scan {i : Instr} {now : Tick z} {s : Block z} (h : scanTime s i = some now) :
    exec i ⟨z, s⟩ = inState (whenReady s (scanAt now s)) := by
  cases i <;> cases h <;> rfl

/-! ## The step -/

/-- What a step can do when it answers a next state: reset, idle, or a command and then the ports
(30_encoding.md R76, R79). -/
theorem step_next {s : Block z} {t : State} (h : step ⟨z, s⟩ = .next t) :
    (s.pins.rstN = false ∧ t = ⟨z, advance (powerOnReset (accept s))⟩) ∨
    (s.pins.rstN = true ∧ s.pins.cmdValid = false ∧ t = ⟨z, advance (accept s)⟩) ∨
    (s.pins.rstN = true ∧ s.pins.cmdValid = true ∧
      ∃ u : Block z, runCommand ⟨z, accept s⟩ = .next ⟨z, u⟩ ∧ t = ⟨z, advance u⟩) := by
  obtain ⟨u, hu, rfl⟩ := mapNext_eq_next h
  simp only at hu
  split at hu
  · cases hu; exact .inl ⟨‹_›, rfl⟩
  · split at hu
    · cases hu; exact .inr (.inl ⟨by simp_all, ‹_›, rfl⟩)
    · obtain ⟨b, hb⟩ : ∃ b : Block z, u = ⟨z, b⟩ := by
        unfold runCommand at hu
        split at hu
        · cases hu; exact ⟨_, rfl⟩
        · rename_i i _
          obtain ⟨o, ho⟩ := exec_eq_inState i (accept s)
          rw [ho] at hu
          obtain ⟨b, _, rfl⟩ := inState_eq_next hu
          exact ⟨b, rfl⟩
      subst hb
      exact .inr (.inr ⟨by simp_all, by simp_all, b, hu, rfl⟩)

/-- An accepted command is a reserved opcode or a command of MKSE-1 (30_encoding.md R79). -/
theorem runCommand_cases (s : Block z) :
    (∃ op, decode s.pins.cmd = .error (.reservedOpcode op) ∧
      runCommand ⟨z, s⟩ = .next ⟨z, respondIllegalOp s⟩) ∨
    ∃ i, decode s.pins.cmd = .ok i ∧ runCommand ⟨z, s⟩ = exec i ⟨z, s⟩ := by
  unfold runCommand fetch
  cases h : decode s.pins.cmd with
  | error e => cases e with | reservedOpcode op => exact .inl ⟨op, rfl, rfl⟩
  | ok i => exact .inr ⟨i, rfl, rfl⟩

end Sys2Proof.Laws
end

