-- ==== Sys2Proof/Laws/PerInstr.lean ====
section
/-! SUPPORT. Laws/PerInstr.lean: facts about each command as syntax, one lemma for each constructor. -/

namespace Sys2Proof.Laws

open Sys2Proof

/-- At every sizes the encoder writes a legal command pair (30_encoding.md R77, R78), with the command's
opcode of R77. -/
def EncodesLegalOpcode.Statement (i : Instr) : Prop :=
  ∀ z : Sizes, (encode z i).wf = true ∧
    (encode z i).op =
      match i with
      | .nop => 0x0#4
      | .configure => 0x1#4
      | .scan _ => 0x2#4
      | .scanTick => 0x3#4
      | .nextKey => 0x4#4
      | .nextAction => 0x5#4
      | .queueClear => 0x6#4

theorem EncodesLegalOpcode.nop : EncodesLegalOpcode.Statement .nop := fun _ => ⟨rfl, rfl⟩

theorem EncodesLegalOpcode.configure : EncodesLegalOpcode.Statement .configure := fun _ => ⟨rfl, rfl⟩

theorem EncodesLegalOpcode.scan (now : Nat) : EncodesLegalOpcode.Statement (.scan now) := fun _ => ⟨rfl, rfl⟩

theorem EncodesLegalOpcode.scanTick : EncodesLegalOpcode.Statement .scanTick := fun _ => ⟨rfl, rfl⟩

theorem EncodesLegalOpcode.nextKey : EncodesLegalOpcode.Statement .nextKey := fun _ => ⟨rfl, rfl⟩

theorem EncodesLegalOpcode.nextAction : EncodesLegalOpcode.Statement .nextAction := fun _ => ⟨rfl, rfl⟩

theorem EncodesLegalOpcode.queueClear : EncodesLegalOpcode.Statement .queueClear := fun _ => ⟨rfl, rfl⟩

end Sys2Proof.Laws
end

