-- ==== Sys2Proof/Laws/Scan.lean ====
section
/-! SUPPORT. Laws/Scan.lean: the two inductions over a sweep (41_scan.md R125), packaged once. -/

namespace Sys2Proof.Laws

open Sys2Proof Sys2Proof.Machine

variable {z : Sizes}

/-- A property that every turn of a loop keeps holds at its end. -/
theorem foldlM_keeps {α β ε : Type} {f : β → α → Except ε β} {P : β → Prop} {l : List α}
    (h : ∀ x a y, a ∈ l → P x → f x a = .ok y → P y) {x y : β} (hx : P x)
    (hf : l.foldlM f x = .ok y) : P y := by
  induction l generalizing x with
  | nil =>
    cases hf
    exact hx
  | cons a l ih =>
    rw [List.foldlM_cons] at hf
    cases ha : f x a with
    | error e => rw [ha] at hf; cases hf
    | ok z =>
      rw [ha] at hf
      exact ih (fun x b y hb => h x b y (List.mem_cons_of_mem a hb)) (h x a z List.mem_cons_self hx ha) hf

/-- A loop every turn of which completes and keeps a property completes with it. -/
theorem foldlM_completes {α β ε : Type} {f : β → α → Except ε β} {P : β → Prop} {l : List α}
    (h : ∀ x a, a ∈ l → P x → ∃ y, f x a = .ok y ∧ P y) {x : β} (hx : P x) :
    ∃ y, l.foldlM f x = .ok y ∧ P y := by
  induction l generalizing x with
  | nil => exact ⟨x, rfl, hx⟩
  | cons a l ih =>
    obtain ⟨z, hz, hP⟩ := h x a List.mem_cons_self hx
    obtain ⟨y, hy, hPy⟩ := ih (fun x b hb => h x b (List.mem_cons_of_mem a hb)) hP
    exact ⟨y, by rw [List.foldlM_cons, hz]; exact hy, hPy⟩

/-- What holds before a sweep, and is kept by every edge of a row output and by every visit of a cell of the
matrix, holds after it. `P` fixes the configuration, so that the bounds of the loops do not move. -/
theorem sweep_keeps {P : Block z × FullCount z → Prop} {now : Tick z} {s u : Block z} {cnt : FullCount z}
    (hcfg : ∀ x, P x → x.1.cfg = s.cfg)
    (hdrive : ∀ x r b, r < s.cfg.rows.toNat → P x → P (driveRow r b x.1, x.2))
    (hvisit : ∀ x r c y, r < s.cfg.rows.toNat → c < s.cfg.cols.toNat → P x →
      visitCell now r x c = .ok y → P y)
    (h0 : P (s, 0)) (h : sweep now s = .ok (u, cnt)) : P (u, cnt) := by
  refine foldlM_keeps (P := P) ?_ h0 h
  intro x r y hr hx hy
  have hr := List.mem_range.mp hr
  unfold visitRow at hy
  cases hrow : (List.range x.1.cfg.cols.toNat).foldlM (visitCell now r) (driveRow r true x.1, x.2) with
  | error f => rw [hrow] at hy; cases hy
  | ok z =>
    rw [hrow] at hy
    cases hy
    refine hdrive z r false hr (foldlM_keeps (P := P) ?_ (hdrive x r true hr hx) hrow)
    intro w c v hc hw hv
    rw [hcfg x hx] at hc
    exact hvisit w r c v hr (List.mem_range.mp hc) hw hv

/-- A sweep every visit of which completes and keeps a property completes with it. -/
theorem sweep_completes {P : Block z × FullCount z → Prop} {now : Tick z} {s : Block z}
    (hcfg : ∀ x, P x → x.1.cfg = s.cfg)
    (hdrive : ∀ x r b, r < s.cfg.rows.toNat → P x → P (driveRow r b x.1, x.2))
    (hvisit : ∀ x r c, r < s.cfg.rows.toNat → c < s.cfg.cols.toNat → P x →
      ∃ y, visitCell now r x c = .ok y ∧ P y)
    (h0 : P (s, 0)) : ∃ y, sweep now s = .ok y ∧ P y := by
  refine foldlM_completes (P := P) ?_ h0
  intro x r hr hx
  have hr := List.mem_range.mp hr
  obtain ⟨z, hz, hPz⟩ := foldlM_completes (P := P) (f := visitCell now r)
    (l := List.range x.1.cfg.cols.toNat)
    (fun w c hc hw => hvisit w r c hr (by rw [hcfg x hx] at hc; exact List.mem_range.mp hc) hw)
    (hdrive x r true hr hx)
  exact ⟨_, by unfold visitRow; rw [hz], hdrive z r false hr hPz⟩

end Sys2Proof.Laws
end

