-- ==== Sys2Proof/Tests/Slice0.lean ====
section
/-! SUPPORT. Tests/Slice0.lean: small tests, their results taken from 95_test_vectors.md (the vector is named
at each) or counted by hand from a rule, and for each obligation with hypotheses a state and operands
that meet them (`witness_<obligation>`). -/

namespace Sys2Proof.Tests

open Sys2Proof Sys2Proof.Machine

/-! ## States

A block of the default sizes `Z`, but for the tests that name another size. -/

/-- The default sizes. -/
abbrev Z : Sizes := Sizes.defaults

/-- A small block with a tick of 8 bits, 2 rows, 3 columns and 5 queue slots. -/
abbrev tiny : Sizes := ⟨8, 2, 3, 5⟩

/-- A map that begins with the given codes. -/
def mapOf (l : List KeyChar) : Vector KeyChar Z.maxCells := Vector.ofFn fun i => l.getD i.val 0

/-- A 1×2 matrix with `UMAP = "Sx"`, `SMAP = "SX"`, shift key 'S', an indicator, D = 20, P = 300, T = 20 and
QCAP = 4. -/
def smallCfg (policy : BitVec 2) : ConfigRegs Z where
  rows := 1
  cols := 2
  umap := mapOf [0x53, 0x78]
  smapPresent := true
  smap := mapOf [0x53, 0x58]
  shiftPresent := true
  shiftChar := 0x53
  indPresent := true
  policy := policy
  debounce := 20
  rdelay := 300
  rtime := 20
  qcap := 4

/-- A queue that holds the given actions from slot 0. -/
def queueOf (acts : List (ActWord Z)) : Queue Z where
  buf := Vector.ofFn fun i => acts.getD i.val 0
  qin := BitVec.ofNat _ acts.length
  qout := 0

/-- A configured block. -/
def block (policy : BitVec 2) (latch : Bool) (acts : List (ActWord Z)) (cells : List (Cell Z)) : Block Z :=
  { Block.reset Z with
    ready := true, cfg := smallCfg policy, latch := latch, shiftInd := latch
    queue := queueOf acts
    cells := Vector.ofFn fun i => cells.getD i.val ⟨0, 0⟩ }

/-- A machine with a command at the port of the block, and row 0 reading the given columns. -/
def offer {z : Sizes} (s : Block z) (op : BitVec 4) (now : Tick z) (row0 : BitVec z.maxCols) : State where
  sizes := z
  block := { s with
    pins :=
      { Pins.idle z with
        cmdValid := true, cmd := ⟨op, now⟩, tickIn := 0x10
        colPressed := Vector.ofFn fun r => if r.val = 0 then row0 else 0 } }

/-- Configuration inputs of the block above. -/
def smallInputs : CfgInputs Z where
  rows := 1
  cols := 2
  umapLen := 2
  umap := mapOf [0x53, 0x78]
  smapPresent := true
  smapLen := 2
  smap := mapOf [0x53, 0x58]
  shiftPresent := true
  shiftChar := 0x53
  indPresent := true
  policy := 3
  debounce := 20
  rdelay := 300
  rtime := 20
  qcap := 4

/-- A block with configuration inputs at the ports. -/
def offerCfg {z : Sizes} (s : Block z) (c : CfgInputs z) : Block z := { s with pins := { s.pins with cfg := c } }

/-- What the tests look at in an outcome: the response (status, consumed, character, action, count, code) and
the queue indices as numbers, and the latch. -/
structure Seen where
  /-- The response. -/
  rsp : Option (List Nat)
  /-- `QIN`. -/
  qin : Nat
  /-- `QOUT`. -/
  qout : Nat
  /-- `LATCH`. -/
  latch : Bool
  deriving DecidableEq

/-- What the tests look at in an outcome; `none` when the machine stops. -/
def seen : Host.Outcome State Fault Refusal → Option Seen
  | .next t =>
    some
      { rsp := t.block.rsp.map fun r =>
          [r.status.toNat, r.consumed.toNat, r.char.toNat, r.action.toNat, r.putFullCnt.toNat, r.cfgErr.toNat]
        qin := t.block.queue.qin.toNat, qout := t.block.queue.qout.toNat, latch := t.block.latch }
  | .fault _ => none
  | .refused _ => none

/-- The state code and the deadline of cell `i` of an outcome. -/
def cellOf (i : Nat) : Host.Outcome State Fault Refusal → Option (Nat × Nat)
  | .next t =>
    some ((cellAt t.block.cells (BitVec.ofNat _ i)).st.toNat, (cellAt t.block.cells (BitVec.ofNat _ i)).next.toNat)
  | .fault _ => none
  | .refused _ => none

/-! ## WellFormed: each check refuses an ill-formed term -/

theorem test_wf_instr_refuses_33_bits : Instr.wf Z (.scan 0xFFFFFFFF) = true ∧ Instr.wf Z (.scan 0x100000000) = false := by
  decide
theorem test_wf_sizes_refuse_small :
    Sizes.wf tiny = true ∧ Sizes.wf ⟨3, 2, 3, 5⟩ = false ∧ Sizes.wf ⟨8, 0, 3, 5⟩ = false ∧
      Sizes.wf ⟨8, 2, 0, 5⟩ = false ∧ Sizes.wf ⟨8, 2, 3, 1⟩ = false := by decide
theorem test_wf_cmd_refuses_reserved : Cmd.wf (⟨0x7#4, 0⟩ : Cmd Z) = false := by decide
theorem test_wf_kind_refuses_reserved : kindBitsWf 0b11#2 = false := by decide
theorem test_wf_cellState_refuses_5 : cellStateBitsWf 5#3 = false := by decide
theorem test_wf_status_refuses_5 : statusBitsWf 5#3 = false := by decide
theorem test_wf_cfgErr_refuses_9 : cfgErrBitsWf 9#4 = false := by decide

/-! ## Decoding: words written bit by bit from 30_encoding.md R77 and 95_test_vectors.md 2.6 -/

theorem test_decode_nop : decode (⟨0b0000#4, 0x12345678⟩ : Cmd Z) = .ok .nop := by decide
theorem test_decode_configure : decode (⟨0b0001#4, 0⟩ : Cmd Z) = .ok .configure := by decide
/-- E10. -/
theorem test_decode_scan : decode (⟨0b0010#4, 0x000003E8⟩ : Cmd Z) = .ok (.scan 1000) := by decide
theorem test_decode_scanTick : decode (⟨0b0011#4, 7⟩ : Cmd Z) = .ok .scanTick := by decide
theorem test_decode_nextKey : decode (⟨0b0100#4, 0⟩ : Cmd Z) = .ok .nextKey := by decide
theorem test_decode_nextAction : decode (⟨0b0101#4, 0⟩ : Cmd Z) = .ok .nextAction := by decide
theorem test_decode_queueClear : decode (⟨0b0110#4, 0⟩ : Cmd Z) = .ok .queueClear := by decide
theorem test_decode_reserved : decode (⟨0b0111#4, 0⟩ : Cmd Z) = .error (.reservedOpcode 7#4) := by decide
/-- E2. -/
theorem test_action_word : packAction (3 : KeyIndex Z) true .repeated = 0x01E := by decide
/-- E5. -/
theorem test_action_fields :
    actIndex (0x7FE : ActWord Z) = 255 ∧ actShift (0x7FE : ActWord Z) = true ∧
      actKind? (0x7FE : ActWord Z) = some .repeated := by decide
theorem test_decode_through_fetch_word :
    fetch (State.reset.withFetchWord 8 0x6).block = .ok .queueClear := by decide

/-! ## One step of each command -/

/-- E9: `NOP` ignores `cmd_now`. -/
theorem test_nop_step :
    seen (step (offer (Block.reset Z) 0x0 0x12345678 0)) = some ⟨some [0, 0, 0, 0, 0, 0], 0, 0, false⟩ := by
  decide +kernel

/-- F1: an accepted configuration answers `OK`. -/
theorem test_configure_accepts :
    seen (exec .configure ⟨Z, offerCfg (block 1 true [0x018] []) smallInputs⟩) =
      some ⟨some [0, 0, 0, 0, 0, 0], 0, 0, false⟩ := by decide +kernel

/-- F18: of two failing checks the lower code is reported. -/
theorem test_configure_lowest_code :
    checkConfig { smallInputs with umapLen := 1, qcap := 1 } = some .umapShort := by decide +kernel

/-- V2 on column 1: a press in a scan at 100 gives `PD(120)` and one Press. -/
theorem test_scan_press :
    cellOf 1 (step (offer (block 0 false [] []) 0x2 100 0b10)) = some (1, 120) ∧
      seen (step (offer (block 0 false [] []) 0x2 100 0b10)) =
        some ⟨some [0, 0, 0, 0, 0, 0], 1, 0, false⟩ := by decide +kernel

/-- Q1: a put into the full queue of capacity 4 is counted, and drops the oldest. -/
theorem test_scan_counts_full :
    seen (step (offer (block 0 false [0x000, 0x008, 0x001] []) 0x2 0 0b10)) =
      some ⟨some [0, 0, 0, 0, 1, 0], 0, 1, false⟩ := by decide +kernel

/-- S4: `SCAN_TICK` scans at the tick input 0x10, whatever `cmd_now` is. -/
theorem test_scanTick_uses_tick :
    cellOf 0 (step (offer (block 0 false [] []) 0x3 999 0b01)) = some (1, 0x24) := by decide +kernel

/-- K5: OneShot with the latch set: the shifted character, then the latch is clear. -/
theorem test_nextKey_oneShot :
    seen (exec .nextKey ⟨Z, block 1 true [0x008] []⟩) = some ⟨some [0, 1, 0x58, 0, 0, 0], 1, 1, false⟩ := by
  decide +kernel

/-- K14: Hold, the shift key's Release clears the latch and yields no character. -/
theorem test_nextKey_hold_release :
    seen (exec .nextKey ⟨Z, block 3 true [0x005] []⟩) = some ⟨some [1, 1, 0, 0, 0, 0], 1, 1, false⟩ := by
  decide +kernel

/-- Q7: `NEXT_ACTION` returns a shift-key Press raw and leaves the latch alone. -/
theorem test_nextAction_raw :
    seen (exec .nextAction ⟨Z, block 1 false [0x000] []⟩) = some ⟨some [0, 1, 0, 0x000, 0, 0], 1, 1, false⟩ := by
  decide +kernel

/-- Q3: an empty queue. -/
theorem test_nextAction_empty :
    seen (exec .nextAction ⟨Z, block 1 true [] []⟩) = some ⟨some [1, 0, 0, 0, 0, 0], 0, 0, true⟩ := by
  decide +kernel

/-- Q6: three live actions are discarded. -/
theorem test_queueClear :
    seen (exec .queueClear ⟨Z, block 1 true [0x008, 0x009, 0x018] []⟩) =
      some ⟨some [0, 0, 0, 0, 0, 0], 0, 0, true⟩ := by decide +kernel

/-- E6, E8: a reserved opcode goes before `NOT_READY`. -/
theorem test_reserved_before_not_ready :
    seen (step (offer (Block.reset Z) 0x7 0 0)) = some ⟨some [3, 0, 0, 0, 0, 0], 0, 0, false⟩ ∧
      seen (step (offer (Block.reset Z) 0x4 0 0)) = some ⟨some [2, 0, 0, 0, 0, 0], 0, 0, false⟩ := by
  decide +kernel

/-! ## The cell state machine -/

/-- V10: a release beats a due deadline. -/
theorem test_cell_release_beats_due :
    cellNext 20#32 300 20 .pressed 420 false 420 = (.releaseDebounce, 440, some .release) := by decide

/-- V14: one transition, although the next deadline is past too. -/
theorem test_cell_one_transition :
    cellNext 20#32 300 20 .pressDebounce 120 true 900 = (.pressed, 420, none) := by decide

/-- V19, V20: a deadline past the wrap of the counter. -/
theorem test_cell_wrap :
    cellNext 20#32 300 20 .pressDebounce 4 true 0xFFFFFFFF = (.pressDebounce, 4, none) ∧
      cellNext 20#32 300 20 .pressDebounce 4 true 4 = (.pressed, 0x130, none) := by decide

/-- V21, V22: exactly half the range is not due. -/
theorem test_due_half_range : due 0x80000000#32 0 = false ∧ due 0x7FFFFFFF#32 0 = true := by decide

/-! ## Another size -/

/-- A configured block of the sizes `tiny`, by its own `CONFIGURE`: 2×3, D = 5, QCAP = 5. -/
def tinyInputs : CfgInputs tiny :=
  { CfgInputs.idle tiny with rows := 2, cols := 3, umapLen := 6, debounce := 5, qcap := 5 }

/-- Counted by hand: with a tick of 8 bits a press at 0xFE in the last cell gets the deadline 0xFE + 5 = 3. -/
theorem test_tiny_scan :
    (match exec .configure ⟨tiny, offerCfg (Block.reset tiny) tinyInputs⟩ with
      | .next ⟨_, b⟩ =>
        cellOf 5 (exec (.scan 0xFE)
          ⟨_, { b with pins := { b.pins with colPressed := Vector.ofFn fun r => if r.val = 1 then 0b100 else 0 } }⟩)
      | _ => none) = some (1, 3) := by decide +kernel

/-! ## Text -/

/-- A scan line of 30_encoding.md R83. -/
theorem test_readLine_scan :
    readLine "SCAN 0x1E | r0=10 ; settle".toList = some (.scan 30 [(0, [true, false])]) := by decide +kernel

/-- A configuration line: absent fields are absent, and a map may hold `;` and spaces. -/
theorem test_readLine_configure :
    readLine "CONFIGURE rows=1 cols=2 umap=\"; \" policy=Off debounce=5 rdelay=30 rtime=10 qcap=8".toList =
      some (.configure
        { rows := 1, cols := 2, umap := [0x3B, 0x20], smap := none, shift := none, ind := false
          policy := .off, debounce := 5, rdelay := 30, rtime := 10, qcap := 8 }) := by decide +kernel

/-! ## Witnesses: a state and operands that meet each obligation's hypotheses -/

/-- Every register of the small configuration is legal. -/
theorem smallCfg_legal (p : BitVec 2) : (smallCfg p).Legal where
  rows_pos := by show 1 ≤ (1 : BitVec Z.rowW).toNat; decide +kernel
  rows_le := by show (1 : BitVec Z.rowW).toNat ≤ 16; decide +kernel
  cols_pos := by show 1 ≤ (2 : BitVec Z.colW).toNat; decide +kernel
  cols_le := by show (2 : BitVec Z.colW).toNat ≤ 16; decide +kernel
  qcap_ge := by show 2 ≤ (4 : BitVec Z.qcapW).toNat; decide +kernel
  qcap_le := by show (4 : BitVec Z.qcapW).toNat ≤ 64; decide +kernel
  debounce_lt := by show (20 : Tick Z).toNat < 2 ^ (Z.tickW - 2); decide +kernel
  rdelay_lt := by show (300 : Tick Z).toNat < 2 ^ (Z.tickW - 2); decide +kernel
  rtime_lt := by show (20 : Tick Z).toNat < 2 ^ (Z.tickW - 2); decide +kernel
  shift_key := fun _ => rfl
  shift_map := fun _ => rfl

/-- A block whose two cells and live actions are legal is in a legal state. -/
theorem block_inv {p : BitVec 2} {latch : Bool} {acts : List (ActWord Z)} {cells : List (Cell Z)}
    (hp : Policy.ofCode p = .off → latch = false) (hlen : acts.length < 4)
    (h0 : (cellAt (block p latch acts cells).cells 0).Legal)
    (h1 : (cellAt (block p latch acts cells).cells 1).Legal)
    (hl : ∀ a ∈ qLive 4 (queueOf acts), ActionLegal (smallCfg 0) a) : (block p latch acts cells).Inv where
  rows_idle := rfl
  indicator := by cases latch <;> rfl
  err_code := rfl
  ready_no_err := fun _ => rfl
  latch_unready := fun h => by simp [block] at h
  latch_off := fun _ h => hp h
  config := fun _ => smallCfg_legal p
  queue_range := fun _ => by
    have h4 : (block p latch acts cells).qcap = 4 := by show (4 : BitVec Z.qcapW).toNat = 4; decide +kernel
    rw [h4]
    refine ⟨?_, by show (0 : QIndex Z).toNat < 4; decide +kernel⟩
    show (BitVec.ofNat Z.qidxW acts.length).toNat < 4
    rw [Laws.qIndex_toNat_ofNat (Nat.lt_trans hlen (by decide))]
    exact hlen
  cells := fun _ i hi => by
    have hn : i.toNat < 2 := by
      have h2 : (block p latch acts cells).ncells = 2 := by
        show (1 : BitVec Z.rowW).toNat * (2 : BitVec Z.colW).toNat = 2
        decide +kernel
      rwa [h2] at hi
    rcases (by omega : i.toNat = 0 ∨ i.toNat = 1) with h | h
    · rw [BitVec.eq_of_toNat_eq (x := i) (y := 0) h]; exact h0
    · have e : i = 1 := BitVec.eq_of_toNat_eq (by rw [h]; decide +kernel)
      rw [e]; exact h1
  live := fun _ a ha => hl a ha
  status := fun r h => by simp [block, Block.reset] at h

/-- A legal state under Hold with the latch set, a Pressed cell and one action waiting. -/
def holdBlock : Block Z := block 3 true [0x008] [⟨2, 320⟩, ⟨0, 0⟩]

theorem holdBlock_inv : holdBlock.Inv :=
  block_inv (by decide) (by decide) (by decide +kernel) (by decide +kernel) (by decide +kernel)

theorem witness_CommandWordRoundTrip : Instr.wf Z (.scan 0xFFFFFFFF) = true := by decide

theorem witness_ReservedOpcodesRefusedByDecoder :
    7 ≤ (⟨7#4, 0⟩ : Cmd Z).op.toNat ∧ (⟨6#4, 0⟩ : Cmd Z).op.toNat < 7 := by decide

theorem witness_OnlyScanReadsCmdNow : (0x2#4 : BitVec 4) = 0x2#4 ∧ (0x3#4 : BitVec 4) ≠ 0x2#4 := by decide

theorem witness_ActionWordReadsBack : actKindBits (0x7FF : ActWord Z) = 0b11#2 ∧ actKindBits (0x7FE : ActWord Z) ≠ 0b11#2 := by decide

theorem witness_AssembledLinesDecode :
    (assemble (Pins.idle Z) (.scan 0xFFFFFFFF [(15, [true])])).isSome = true ∧
      (assemble (Pins.idle Z) (.scanTick (some 0) [])).isSome = true ∧
      (assemble (Pins.idle Z) (.scanTick none [])).isSome = true ∧
      (assemble (Pins.idle Z) (.configure
        { rows := 0, cols := 31, umap := [], smap := none, shift := none, ind := true, policy := .off
          debounce := 0, rdelay := 0, rtime := 0, qcap := 127 })).isSome = true ∧
      (assemble (Pins.idle Z) .nop).isSome = true ∧ (assemble (Pins.idle Z) .nextKey).isSome = true ∧
      (assemble (Pins.idle Z) .nextAction).isSome = true ∧ (assemble (Pins.idle Z) .queueClear).isSome = true := by
  decide +kernel

theorem witness_StepRunsDecodedCommand :
    (offer holdBlock 0x2 5 1).block.pins.rstN = true ∧ (offer holdBlock 0x2 5 1).block.pins.cmdValid = true ∧
      Instr.wf Z (.scan 5) = true ∧ decode (offer holdBlock 0x2 5 1).block.pins.cmd = .ok (.scan 5) := by decide +kernel

theorem witness_StepAnswersReservedOpcode :
    (offer holdBlock 0x7 5 1).block.pins.rstN = true ∧ (offer holdBlock 0x7 5 1).block.pins.cmdValid = true ∧
      7 ≤ (offer holdBlock 0x7 5 1).block.pins.cmd.op.toNat := by decide +kernel

theorem witness_StepResetsOnRstN : { holdBlock with pins := { Pins.idle Z with rstN := false } }.pins.rstN = false :=
  rfl

theorem witness_StepIdlesWithoutCommand : holdBlock.pins.rstN = true ∧ holdBlock.pins.cmdValid = false :=
  ⟨rfl, rfl⟩

theorem witness_NotReadyRefusesCommands :
    (Block.reset Z).ready = false ∧ Instr.scan 3 ≠ .nop ∧ Instr.scan 3 ≠ .configure := by decide

theorem witness_ConfigureLoadsAndInitialises :
    checkConfig (offerCfg holdBlock smallInputs).pins.cfg = none := by decide +kernel

theorem witness_ConfigureRejectsWhole :
    checkConfig (offerCfg holdBlock { smallInputs with smapPresent := false }).pins.cfg = some .noSmap := by
  decide +kernel

theorem witness_DueIsHalfRange : (0x80000000#32 - 0).toNat = 2 ^ 31 ∧ (0x7FFFFFFF#32 - 0).toNat < 2 ^ 31 := by
  decide

theorem witness_NoDeadlineIsSkippedWithinHorizon :
    0 < (0x80000000#32 - 0).toNat ∧ (0x80000000#32 - 0).toNat ≤ 2 ^ 31 ∧ (0x7FFFFFFF#32 - 0).toNat < 2 ^ 31 := by
  decide

theorem witness_PressDebounceTransitions : due 119#32 120 = false ∧ due 120#32 120 = true := by decide

theorem witness_PressedTransitions : due 420#32 420 = true ∧ due 419#32 420 = false := by decide

theorem witness_RepeatingTransitions : due 440#32 440 = true ∧ due 439#32 440 = false := by decide

theorem witness_ReleaseDebounceTransitions : due 480#32 480 = true ∧ due 479#32 480 = false := by decide

theorem witness_WrapAroundIsInvisible :
    (cellRun 20#32 300 20 .released 0 [(true, 0xFFFFFFF0), (true, 4)]).1 ≠ .released := by decide

theorem witness_DeadlinesAccumulateFromPress :
    Kind.release ∉ (cellRun 20#32 300 20 .released 0 [(true, 0), (true, 20), (true, 320)]).2.2 := by decide

theorem witness_ReleaseWindowCarriesPendingTime :
    CellState.pressed = .pressed ∨ CellState.pressed = .repeating := .inl rfl

theorem witness_PressDebounceEndsOnTime :
    (20#32).toNat ≤ 2 ^ 31 ∧
      spacingBelow (2 ^ 31) ((0#32) :: ([(false, (19#32))].map (·.2) ++ [20#32])) ∧
      elapsed ((0#32) :: [(false, (19#32))].map (·.2)) < (20#32).toNat := by
  refine ⟨by decide, ⟨by decide, by decide, trivial⟩, by decide⟩

/-- The scan statements: both commands, on a legal block with one cell Pressed. -/
theorem witness_ScanIsLaneWise :
    scanTime holdBlock (.scan 0x100000005) = some 5 ∧ scanTime holdBlock .scanTick = some holdBlock.pins.tickIn ∧
      holdBlock.ready = true ∧ holdBlock.rowActive = 0 ∧ holdBlock.cfg.rows.toNat ≤ Z.maxRows ∧
      holdBlock.cfg.cols.toNat ≤ Z.maxCols ∧
      ∀ n : KeyIndex Z, n.toNat < holdBlock.cfg.rows.toNat * holdBlock.cfg.cols.toNat →
        (cellAt holdBlock.cells n).st.toNat < 5 :=
  ⟨by decide +kernel, rfl, rfl, rfl, by decide +kernel, by decide +kernel, fun n hn => by
    simpa [cellStateBitsWf] using (holdBlock_inv.cells rfl n hn).1⟩

/-- The premises of the statements about a completed scan: the scan of `holdBlock` completes. -/
theorem witness_ScanDrivesRowsInOrder :
    holdBlock.ready = true ∧ holdBlock.rowActive = 0 ∧ holdBlock.trace = [] ∧
      (seen (exec (.scan 400) ⟨Z, holdBlock⟩)).isSome = true ∧ (seen (exec .scanTick ⟨Z, holdBlock⟩)).isSome = true := by
  decide +kernel

theorem witness_ScanStampsEveryActionWithLatch :
    holdBlock.trace = [] ∧
      (match exec (.scan 400) ⟨Z, holdBlock⟩ with
        | .next t => t.block.trace.any fun e => match e with
          | .put a full => a.toNat == 5 && !full
          | _ => false
        | _ => false) = true := by decide +kernel

theorem witness_ScanCountsFullPuts :
    (block 3 true [0x008, 0x009, 0x008] [⟨2, 320⟩]).ready = true ∧
      (block 3 true [0x008, 0x009, 0x008] [⟨2, 320⟩]).trace = [] ∧
      (match exec (.scan 400) ⟨Z, block 3 true [0x008, 0x009, 0x008] [⟨2, 320⟩]⟩ with
        | .next t => t.block.rsp.map (·.putFullCnt.toNat) == some 1
        | _ => false) = true := by decide +kernel

theorem witness_ScanIgnoresShiftConfiguration :
    (smallCfg 0).rows = holdBlock.cfg.rows ∧ (smallCfg 0).cols = holdBlock.cfg.cols ∧
      (smallCfg 0).debounce = holdBlock.cfg.debounce ∧ (smallCfg 0).rdelay = holdBlock.cfg.rdelay ∧
      (smallCfg 0).rtime = holdBlock.cfg.rtime ∧ (smallCfg 0).qcap = holdBlock.cfg.qcap ∧
      (smallCfg 0).policy ≠ holdBlock.cfg.policy ∧ (seen (exec (.scan 400) ⟨Z, holdBlock⟩)).isSome = true := by
  decide +kernel

/-- Both sides of the statement about scans that stop: each impossible value stops a scan, and a legal
block does not. -/
theorem witness_ScanStopsOnlyOnImpossibleValues :
    seen (exec (.scan 0) ⟨Z, block 3 true [] [⟨5, 0⟩]⟩) = none ∧
      seen (exec .scanTick ⟨Z, { holdBlock with cfg := { smallCfg 3 with rows := 17 } }⟩) = none ∧
      seen (exec .scanTick ⟨Z, { holdBlock with cfg := { smallCfg 3 with cols := 17 } }⟩) = none ∧
      (seen (exec (.scan 0) ⟨Z, holdBlock⟩)).isSome = true := by decide +kernel

theorem witness_QPutIsBoundedFifo :
    2 ≤ 4 ∧ 4 ≤ Z.maxQ ∧ (queueOf [0x008, 0x009, 0x018]).InRange 4 ∧
      (qPut 4 0x019 (queueOf [0x008, 0x009, 0x018])).2 = true ∧
      (qPut 4 0x019 (queueOf [0x008, 0x009])).2 = false := by decide +kernel

theorem witness_QGetTakesOldest :
    2 ≤ 2 ∧ 2 ≤ Z.maxQ ∧ (queueOf [0x008]).InRange 2 ∧ (qGet 2 (queueOf [0x008])).isSome = true ∧
      qGet 2 (queueOf []) = none := by decide +kernel

theorem witness_CapacityPutsDropOnlyOldest :
    2 ≤ 2 ∧ 2 ≤ Z.maxQ ∧ (queueOf []).InRange 2 ∧ qLive 2 (queueOf []) = [] ∧
      ([0x008, 0x009] : List (ActWord Z)).length = 2 := by decide +kernel

theorem witness_NextActionReturnsRawAction :
    (Block.reset Z).ready = false ∧ (block 3 true [] []).ready = true ∧
      (block 3 true [] []).queue.qin = (block 3 true [] []).queue.qout ∧ holdBlock.ready = true ∧
      holdBlock.queue.qin ≠ holdBlock.queue.qout ∧
      actKindBits (slotAt holdBlock.queue.buf holdBlock.queue.qout) ≠ 0b11#2 ∧
      actKindBits (slotAt (block 3 true [0x00B] []).queue.buf 0) = 0b11#2 := by decide +kernel

theorem witness_NextActionIsFifo :
    holdBlock.Inv ∧ holdBlock.ready = true ∧ qLive holdBlock.qcap holdBlock.queue = 0x008 :: [] :=
  ⟨holdBlock_inv, rfl, by decide +kernel⟩

theorem witness_QueueClearEmptiesQueue :
    (Block.reset Z).ready = false ∧ holdBlock.ready = true ∧
      (seen (exec .queueClear ⟨Z, holdBlock⟩)).isSome = true := by decide +kernel

theorem witness_NextKeyOnEmptyQueue :
    (block 3 true [] []).ready = true ∧
      (block 3 true [] []).queue.qin = (block 3 true [] []).queue.qout := by decide +kernel

/-- Both clauses: the shift key's Release under Hold clears, another key's does not. -/
theorem witness_NextKeyDrainsRelease :
    (block 3 true [0x005] []).ready = true ∧
      (block 3 true [0x005] []).queue.qin ≠ (block 3 true [0x005] []).queue.qout ∧
      slotAt (block 3 true [0x005] []).queue.buf (block 3 true [0x005] []).queue.qout = 0x005 ∧
      actKindBits (0x005 : ActWord Z) = 0b01#2 ∧ (smallCfg 3).policy = 3#2 ∧ (smallCfg 3).shiftPresent = true ∧
      mapAt (smallCfg 3).umap (actIndex 0x005) = (smallCfg 3).shiftChar ∧
      slotAt (block 3 true [0x009] []).queue.buf (block 3 true [0x009] []).queue.qout = 0x009 ∧
      actKindBits (0x009 : ActWord Z) = 0b01#2 ∧
      mapAt (smallCfg 3).umap (actIndex 0x009) ≠ (smallCfg 3).shiftChar := by decide +kernel

theorem witness_NextKeyShiftKeyWritesLatch :
    (block 2 false [0x002] []).ready = true ∧
      (block 2 false [0x002] []).queue.qin ≠ (block 2 false [0x002] []).queue.qout ∧
      slotAt (block 2 false [0x002] []).queue.buf (block 2 false [0x002] []).queue.qout = 0x002 ∧
      actKindBits (0x002 : ActWord Z) = 0b10#2 ∧ (smallCfg 2).policy ≠ 0#2 ∧ (smallCfg 2).shiftPresent = true ∧
      mapAt (smallCfg 2).umap (actIndex 0x002) = (smallCfg 2).shiftChar := by decide +kernel

/-- Each of the three ways not to be a shift key: Off, no shift key, another character. -/
theorem witness_NextKeyReturnsCharacter :
    holdBlock.ready = true ∧ holdBlock.queue.qin ≠ holdBlock.queue.qout ∧
      slotAt holdBlock.queue.buf holdBlock.queue.qout = 0x008 ∧ actKindBits (0x008 : ActWord Z) = 0b00#2 ∧
      mapAt holdBlock.cfg.umap (actIndex 0x008) ≠ holdBlock.cfg.shiftChar ∧
      (block 0 false [0x000] []).cfg.policy = 0#2 ∧ actKindBits (0x000 : ActWord Z) = 0b00#2 ∧
      { smallCfg 0 with shiftPresent := false }.shiftPresent = false := by decide +kernel

theorem witness_DequeueStopsOnlyOnReservedKind :
    seen (exec .nextAction ⟨Z, block 3 true [0x00B] []⟩) = none ∧
    seen (exec .nextKey ⟨Z, block 3 true [0x00B] []⟩) = none ∧ actKindBits (0x00B : ActWord Z) = 0b11#2 ∧
      (seen (exec .nextKey ⟨Z, holdBlock⟩)).isSome = true := by decide +kernel

theorem witness_OneShotShiftsOneKey :
    (block 1 false [0x000, 0x008, 0x008] []).Inv ∧ (block 1 false [0x000, 0x008, 0x008] []).ready = true ∧
      (block 1 false [0x000, 0x008, 0x008] []).policy = .oneShot ∧
      qLive 4 (block 1 false [0x000, 0x008, 0x008] []).queue =
        packAction (0 : KeyIndex Z) false .press :: packAction (1 : KeyIndex Z) false .press :: packAction (1 : KeyIndex Z) false .press :: [] ∧
      mapAt (smallCfg 1).umap 0 = (smallCfg 1).shiftChar ∧ mapAt (smallCfg 1).umap 1 ≠ (smallCfg 1).shiftChar :=
  ⟨block_inv (by decide) (by decide) (by decide +kernel) (by decide +kernel) (by decide +kernel), rfl, by decide,
    by decide +kernel, by decide +kernel, by decide +kernel⟩

theorem witness_OneShotDoubleShiftCancels :
    (block 1 true [0x000, 0x004] []).Inv ∧ (block 1 true [0x000, 0x004] []).ready = true ∧
      (block 1 true [0x000, 0x004] []).policy = .oneShot ∧
      qLive 4 (block 1 true [0x000, 0x004] []).queue =
        packAction (0 : KeyIndex Z) false .press :: packAction (0 : KeyIndex Z) true .press :: [] ∧
      mapAt (smallCfg 1).umap 0 = (smallCfg 1).shiftChar :=
  ⟨block_inv (by decide) (by decide) (by decide +kernel) (by decide +kernel) (by decide +kernel), rfl, by decide,
    by decide +kernel, by decide +kernel⟩

/-- Lock with four live actions needs a capacity of 5 or more. -/
def lockBlock : Block Z :=
  { block 2 false [0x000, 0x008, 0x000, 0x008] [] with cfg := { smallCfg 2 with qcap := 8 } }

theorem lockBlock_inv : lockBlock.Inv where
  rows_idle := rfl
  indicator := rfl
  err_code := rfl
  ready_no_err := fun _ => rfl
  latch_unready := fun h => by simp [lockBlock, block] at h
  latch_off := fun _ h => rfl
  config := fun _ => { smallCfg_legal 2 with qcap_ge := by decide +kernel, qcap_le := by decide +kernel }
  queue_range := fun _ => by decide +kernel
  cells := fun _ i _ => by
    have : cellAt lockBlock.cells i = ⟨0, 0⟩ := by
      show elemAt _ (Vector.ofFn _) _ = _
      unfold elemAt
      split <;> simp
    rw [this]; decide +kernel
  live := fun _ => by decide +kernel
  status := fun r h => by simp [lockBlock, block, Block.reset] at h

theorem witness_LockShiftsBetweenShiftPresses :
    lockBlock.Inv ∧ lockBlock.ready = true ∧ lockBlock.policy = .lock ∧ lockBlock.latch = false ∧
      qLive lockBlock.qcap lockBlock.queue =
        packAction (0 : KeyIndex Z) false .press :: packAction (1 : KeyIndex Z) false .press :: packAction (0 : KeyIndex Z) false .press ::
          packAction (1 : KeyIndex Z) false .press :: [] ∧
      mapAt lockBlock.cfg.umap 0 = lockBlock.cfg.shiftChar ∧
      mapAt lockBlock.cfg.umap 1 ≠ lockBlock.cfg.shiftChar :=
  ⟨lockBlock_inv, rfl, by decide, rfl, by decide +kernel, by decide +kernel, by decide +kernel⟩

theorem witness_EachCommandWritesOnlyItsState :
    (seen (exec .nop ⟨Z, holdBlock⟩)).isSome = true ∧ (seen (exec .configure ⟨Z, holdBlock⟩)).isSome = true ∧
      (seen (exec (.scan 9) ⟨Z, holdBlock⟩)).isSome = true ∧ (seen (exec .scanTick ⟨Z, holdBlock⟩)).isSome = true ∧
      (seen (exec .nextKey ⟨Z, holdBlock⟩)).isSome = true ∧ (seen (exec .nextAction ⟨Z, holdBlock⟩)).isSome = true ∧
      (seen (exec .queueClear ⟨Z, holdBlock⟩)).isSome = true := by decide +kernel

theorem witness_InputsReadOnlyByTheirCommands :
    (Pins.idle Z).colPressed = holdBlock.pins.colPressed ∧ (Pins.idle Z).tickIn = holdBlock.pins.tickIn ∧
      (Pins.idle Z).cfg = holdBlock.pins.cfg :=
  ⟨rfl, rfl, rfl⟩

theorem witness_NoStepStopsFromLegalState : State.Inv ⟨Z, holdBlock⟩ := ⟨by decide, holdBlock_inv⟩

theorem witness_RunsNeverStop : State.Inv ⟨Z, holdBlock⟩ := ⟨by decide, holdBlock_inv⟩

theorem witness_SizesNeverChange :
    (seen (exec .nextKey ⟨Z, holdBlock⟩)).isSome = true ∧ (seen (step (offer holdBlock 0x2 400 1))).isSome = true := by
  decide +kernel

theorem witness_InvariantAtReset : tiny.wf = true := by decide

theorem offered_inv : (offer holdBlock 0x2 400 1).Inv :=
  ⟨by decide, { holdBlock_inv with }⟩

theorem witness_EveryStepKeepsInvariant :
    (offer holdBlock 0x2 400 1).Inv ∧ (seen (step (offer holdBlock 0x2 400 1))).isSome = true :=
  ⟨offered_inv, by decide +kernel⟩

/-- The state of `holdBlock` with another content in a cell that is not in use, and another word in a slot
that is not live. -/
def holdBlockTwin : Block Z :=
  { holdBlock with
    queue := { holdBlock.queue with buf := slotSet holdBlock.queue.buf 3 0x7FF }
    cells := cellSet holdBlock.cells 200 ⟨7, 5⟩ }

theorem holdBlockTwin_cells (i : KeyIndex Z) (h : i.toNat < 2) :
    cellAt holdBlock.cells i = cellAt holdBlockTwin.cells i :=
  (Laws.cellAt_cellSet_ne holdBlock.cells ⟨7, 5⟩ fun e : 200 = i => by
    rw [← e] at h; exact absurd h (by decide +kernel)).symm

theorem holdBlockTwin_inv : holdBlockTwin.Inv where
  rows_idle := rfl
  indicator := rfl
  err_code := rfl
  ready_no_err := fun _ => rfl
  latch_unready := fun h => by simp [holdBlockTwin, holdBlock, block] at h
  latch_off := fun _ h => absurd h (by decide)
  config := fun _ => smallCfg_legal 3
  queue_range := fun _ => by decide +kernel
  cells := fun _ i hi => by
    have h : i.toNat < 2 := by rwa [show holdBlockTwin.ncells = 2 by decide +kernel] at hi
    have h' : i.toNat < holdBlock.ncells := by rwa [show holdBlock.ncells = 2 by decide +kernel]
    have e := holdBlock_inv.cells rfl i h'
    rwa [holdBlockTwin_cells i h] at e
  live := fun _ => by decide +kernel
  status := fun r h => by simp [holdBlockTwin, holdBlock, block, Block.reset] at h

theorem witness_UnspecifiedStateIsUnobservable :
    holdBlock.Inv ∧ holdBlockTwin.Inv ∧ holdBlock.Agree holdBlockTwin ∧
      holdBlock.queue.buf ≠ holdBlockTwin.queue.buf ∧
      (seen (step (offer holdBlock 0x2 400 1))).isSome = true :=
  ⟨holdBlock_inv, holdBlockTwin_inv,
    { ready := rfl, cfgErr := rfl, latch := rfl, rowActive := rfl, shiftInd := rfl, rsp := rfl, pins := rfl
      pending := rfl, trace := rfl
      cfg := fun _ =>
        ⟨rfl, rfl, rfl, rfl, rfl, rfl, rfl, rfl, rfl, rfl, rfl, fun _ _ => rfl, fun _ _ => rfl⟩
      cells := fun _ i hi => holdBlockTwin_cells i (by rwa [show holdBlock.ncells = 2 by decide +kernel] at hi)
      qin := fun _ => rfl, qout := fun _ => rfl, live := fun _ => by decide +kernel },
    by decide +kernel, by decide +kernel⟩

end Sys2Proof.Tests
end

namespace Sys2Proof.Proofs

open Sys2Proof Sys2Proof.Machine Sys2Proof.Laws

/-! ## The wrap-safe deadline test (00_scope.md R13) -/

theorem due_iff_toInt_nonneg {w : Nat} (now t : BitVec w) : due now t = true ↔ 0 ≤ (now - t).toInt :=
  decide_eq_true_iff

/-- Half the range of `w + 1` bits is `2 ^ w`: read as two's complement, the values below it are not negative. -/
theorem due_iff_toNat_lt {w : Nat} (now t : BitVec (w + 1)) : due now t = true ↔ (now - t).toNat < 2 ^ w := by
  have hpow : 2 ^ (w + 1) = 2 * 2 ^ w := Nat.pow_succ'
  rw [due_iff_toInt_nonneg, BitVec.toInt_pos_iff, hpow]
  omega

/-- With both moments measured from `now`, the difference that `due` tests is that of the two elapsed times. -/
theorem due_iff_elapsed_sub {w : Nat} (now later t : BitVec (w + 1)) :
    due later t = true ↔ ((later - now) - (t - now)).toNat < 2 ^ w := by
  rw [due_iff_toNat_lt, sub_sub_sub_cancel_right]

/-- Settles O18: `due` is by definition the sign test, and the half-range test by `due_iff_toNat_lt`, whose bound
the half-range point itself misses. -/
theorem dueIsHalfRange : Obligations.DueIsHalfRange := by
  intro w now t
  refine ⟨due_iff_toInt_nonneg now t, due_iff_toNat_lt now t, fun hhalf => ?_⟩
  rw [← Bool.not_eq_true, due_iff_toNat_lt, hhalf]
  exact lt_irrefl _

/-- Settles O19, by the order of the elapsed time `later - now` and the distance `t - now`: when the deadline is
reached the difference does not wrap and stays below half the range; before it the difference wraps, and lands in
the upper half because the deadline lay at most half the range ahead. -/
theorem noDeadlineIsSkippedWithinHorizon : Obligations.NoDeadlineIsSkippedWithinHorizon := by
  intro w now later t _ hahead hlater
  rw [due_iff_elapsed_sub now later t]
  rcases Nat.lt_or_ge (later - now).toNat (t - now).toNat with hbefore | hreached
  · have hpow : 2 ^ (w + 1) = 2 * 2 ^ w := Nat.pow_succ'
    rw [BitVec.toNat_sub_of_lt hbefore, hpow]
    omega
  · rw [BitVec.toNat_sub_of_le hreached]
    omega

/-! ## The step (00_scope.md R6, 30_encoding.md R76, R79) -/

section Step

variable {z : Sizes} {s : Block z}

/-- With reset released and a command at the port, the step is the dispatch of that command. -/
theorem step_of_command (hrst : s.pins.rstN = true) (hvalid : s.pins.cmdValid = true) :
    step ⟨z, s⟩ = mapNext portsMoved (runCommand ⟨z, accept s⟩) := by
  simp [step, hrst, hvalid]

theorem runCommand_of_decode {i : Instr} (h : decode s.pins.cmd = .ok i) : runCommand ⟨z, s⟩ = exec i ⟨z, s⟩ := by
  rcases runCommand_cases s with ⟨op, hop, _⟩ | ⟨j, hj, hrun⟩
  · cases h.symm.trans hop
  · cases h.symm.trans hj
    exact hrun

end Step

/-- Settles O8: the step is the dispatch, and the dispatch runs what the decoder reads. Taking the last response
and trace away leaves the port as it is. -/
theorem stepRunsDecodedCommand : Obligations.StepRunsDecodedCommand := by
  intro z s i hrst hvalid _ hdecode
  have hport : decode (accept s).pins.cmd = .ok i := hdecode
  rw [step_of_command hrst hvalid, runCommand_of_decode hport]
  rfl

/-! ## The static parameters (00_scope.md R8) -/

theorem exec_next_sizes {i : Instr} {s t : State} (h : exec i s = .next t) : t.sizes = s.sizes := by
  obtain ⟨o, ho⟩ := exec_eq_inState i s.block
  obtain ⟨b, _, rfl⟩ := inState_eq_next (ho.symm.trans h)
  rfl

/-- A reset, an idle cycle and a command each end with a block of the sizes before. -/
theorem step_next_sizes {s t : State} (h : step s = .next t) : t.sizes = s.sizes := by
  rcases step_next h with ⟨_, rfl⟩ | ⟨_, _, rfl⟩ | ⟨_, _, _, _, rfl⟩ <;> rfl

/-- Settles O53, from what a command and a step can answer (`exec_eq_inState`, `step_next`). -/
theorem sizesNeverChange : Obligations.SizesNeverChange :=
  ⟨fun _ _ _ => exec_next_sizes, fun _ _ => step_next_sizes⟩

end Sys2Proof.Proofs

namespace Sys2Proof.Proofs

open Sys2Proof Sys2Proof.Machine Sys2Proof.Laws

/-! ## The queue as a ring (10_state.md R31, R32; 42_queue.md R140 to R142) -/

section Ring

variable {z : Sizes} {cap : Nat}

/-- The `n` slots from place `out` on, in ring order. -/
def slotsFrom (cap : Nat) (b : Vector (ActWord z) z.maxQ) (out n : Nat) : List (ActWord z) :=
  (List.range n).map fun k => slotAt b (BitVec.ofNat z.qidxW ((out + k) % cap))

theorem qLive_eq_slotsFrom (cap : Nat) (q : Queue z) :
    qLive cap q = slotsFrom cap q.buf q.qout.toNat (qCount cap q) := rfl

@[simp] theorem slotsFrom_length (b : Vector (ActWord z) z.maxQ) (out n : Nat) :
    (slotsFrom cap b out n).length = n := by
  simp [slotsFrom]

theorem slotsFrom_succ_last (b : Vector (ActWord z) z.maxQ) (out n : Nat) :
    slotsFrom cap b out (n + 1) =
      slotsFrom cap b out n ++ [slotAt b (BitVec.ofNat z.qidxW ((out + n) % cap))] := by
  simp [slotsFrom, List.range_succ]

theorem slotsFrom_succ_first (b : Vector (ActWord z) z.maxQ) (out n : Nat) :
    slotsFrom cap b out (n + 1) =
      slotAt b (BitVec.ofNat z.qidxW (out % cap)) :: slotsFrom cap b ((out + 1) % cap) n := by
  simp [slotsFrom, List.range_succ_eq_map, Function.comp_def, Nat.add_right_comm, Nat.add_assoc]

/-- Places less than `cap` steps apart on the ring differ. -/
theorem ring_place_inj {out m n : Nat} (hm : m < cap) (hn : n < cap) (h : (out + m) % cap = (out + n) % cap) :
    m = n := by
  have hmod : m ≡ n [MOD cap] := Nat.ModEq.add_left_cancel' out h
  exact hmod.eq_of_lt_of_lt hm hn

theorem slot_ofNat_toNat {k : Nat} (hcap : cap ≤ z.maxQ) (hk : k < cap) :
    (BitVec.ofNat z.qidxW k : QIndex z).toNat = k :=
  qIndex_toNat_ofNat (lt_of_lt_of_le hk hcap)

/-- A write at the place after the first `n` leaves them. -/
theorem slotsFrom_slotSet {b : Vector (ActWord z) z.maxQ} {out n : Nat} {k : QIndex z} (a : ActWord z)
    (hcap : cap ≤ z.maxQ) (hn : n < cap) (hk : (out + n) % cap = k.toNat) :
    slotsFrom cap (slotSet b k a) out n = slotsFrom cap b out n := by
  refine List.map_congr_left fun m hm => slotAt_slotSet_ne b a fun heq => ?_
  have hlt : m < n := List.mem_range.mp hm
  have hplace : (out + n) % cap = (out + m) % cap := by
    rw [hk, heq, slot_ofNat_toNat hcap (Nat.mod_lt _ (by omega))]
  have := ring_place_inj hn (by omega) hplace
  omega

variable {q q' : Queue z} {a : ActWord z}

theorem qNext_toNat (hcap : cap ≤ z.maxQ) (hpos : 0 < cap) (k : QIndex z) :
    (qNext cap k).toNat = (k.toNat + 1) % cap :=
  slot_ofNat_toNat hcap (Nat.mod_lt _ hpos)

/-- `QCOUNT` is the number of steps from `QOUT` to `QIN` on the ring (10_state.md R32). -/
theorem qCount_eq_iff (hq : q.InRange cap) {n : Nat} (hn : n < cap) :
    qCount cap q = n ↔ (q.qout.toNat + n) % cap = q.qin.toNat := by
  obtain ⟨hin, hout⟩ := hq
  have hsteps : (q.qout.toNat + qCount cap q) % cap = q.qin.toNat := by
    unfold qCount
    rw [Nat.add_mod_mod, show q.qout.toNat + (q.qin.toNat + cap - q.qout.toNat) = q.qin.toNat + cap by omega,
      Nat.add_mod_right, Nat.mod_eq_of_lt hin]
  constructor
  · rintro rfl
    exact hsteps
  · intro h
    exact ring_place_inj (Nat.mod_lt _ (by omega)) hn (hsteps.trans h.symm)

theorem qCount_lt (hq : q.InRange cap) : qCount cap q < cap := Nat.mod_lt _ (Nat.zero_lt_of_lt hq.1)

theorem qNext_lt (hcap : cap ≤ z.maxQ) (hpos : 0 < cap) (k : QIndex z) : (qNext cap k).toNat < cap := by
  rw [qNext_toNat hcap hpos]
  exact Nat.mod_lt _ hpos

theorem qCount_spec (hq : q.InRange cap) : (q.qout.toNat + qCount cap q) % cap = q.qin.toNat :=
  (qCount_eq_iff hq (qCount_lt hq)).mp rfl

/-- One more step leads from `QOUT` to where a put leaves `QIN`. -/
theorem qCount_spec_next (hcap : cap ≤ z.maxQ) (hq : q.InRange cap) :
    (q.qout.toNat + (qCount cap q + 1)) % cap = (qNext cap q.qin).toNat := by
  rw [qNext_toNat hcap (Nat.zero_lt_of_lt hq.1), ← qCount_spec hq, Nat.mod_add_mod, Nat.add_assoc]

/-- The advanced `QIN` meets `QOUT` exactly when `cap - 1` actions are live (42_queue.md R146). -/
theorem qNext_qin_eq_qout_iff (hcap : cap ≤ z.maxQ) (hq : q.InRange cap) :
    qNext cap q.qin = q.qout ↔ qCount cap q + 1 = cap := by
  have hlt := qCount_lt hq
  have hnext := qCount_spec_next hcap hq
  constructor
  · intro hmeet
    by_contra hne
    have hround : (q.qout.toNat + (qCount cap q + 1)) % cap = (q.qout.toNat + 0) % cap := by
      rw [hnext, hmeet, Nat.add_zero, Nat.mod_eq_of_lt hq.2]
    exact absurd (ring_place_inj (by omega) (by omega) hround) (Nat.succ_ne_zero _)
  · intro hfull
    refine BitVec.eq_of_toNat_eq ?_
    rw [← hnext, hfull, Nat.add_mod_right, Nat.mod_eq_of_lt hq.2]

theorem qPut_inRange (a : ActWord z) (hcap : cap ≤ z.maxQ) (hq : q.InRange cap) :
    (qPut cap a q).1.InRange cap := by
  have hpos : 0 < cap := Nat.zero_lt_of_lt hq.1
  rcases qPut_cases cap a q with ⟨_, hput⟩ | ⟨_, hput⟩ <;> rw [hput]
  · exact ⟨qNext_lt hcap hpos _, hq.2⟩
  · exact ⟨qNext_lt hcap hpos _, qNext_lt hcap hpos _⟩

/-- After a put the slots from the old `QOUT` on hold the live actions and then the new one. -/
theorem slotsFrom_qPut (a : ActWord z) (hcap : cap ≤ z.maxQ) (hq : q.InRange cap) :
    slotsFrom cap (slotSet q.buf q.qin a) q.qout.toNat (qCount cap q + 1) = qLive cap q ++ [a] := by
  have hin := qCount_spec hq
  rw [slotsFrom_succ_last, slotsFrom_slotSet a hcap (qCount_lt hq) hin, hin, BitVec.ofNat_toNat, BitVec.setWidth_eq,
    slotAt_slotSet_same _ _ (lt_of_lt_of_le hq.1 hcap), qLive_eq_slotsFrom]

/-- A put appends its action to the live ones; the oldest is dropped when the put reports full (42_queue.md R140,
R146). -/
theorem qLive_qPut (a : ActWord z) (hge : 2 ≤ cap) (hcap : cap ≤ z.maxQ) (hq : q.InRange cap) :
    qLive cap (qPut cap a q).1 =
      (if (qPut cap a q).2 then (qLive cap q).tail else qLive cap q) ++ [a] := by
  have hlt := qCount_lt hq
  have hnext := qCount_spec_next hcap hq
  have hrange := qPut_inRange a hcap hq
  rcases qPut_cases cap a q with ⟨hroom, hput⟩ | ⟨hmeet, hput⟩ <;> rw [hput] at hrange ⊢
  · have hcount : qCount cap q + 1 < cap :=
      lt_of_le_of_ne hlt fun hfull => hroom ((qNext_qin_eq_qout_iff hcap hq).mpr hfull)
    rw [qLive_eq_slotsFrom, (qCount_eq_iff hrange hcount).mpr hnext]
    exact slotsFrom_qPut a hcap hq
  · have hfull := (qNext_qin_eq_qout_iff hcap hq).mp hmeet
    have hout := qNext_toNat hcap (show 0 < cap by omega) q.qout
    have hcount : qCount cap ⟨slotSet q.buf q.qin a, qNext cap q.qin, qNext cap q.qout⟩ = qCount cap q := by
      refine (qCount_eq_iff hrange hlt).mpr ?_
      simp only [hout]
      rw [Nat.mod_add_mod, Nat.add_assoc, Nat.add_comm 1, hnext]
    have hne : qLive cap q ≠ [] := by
      rw [← List.length_pos_iff, qLive_eq_slotsFrom, slotsFrom_length]
      omega
    rw [qLive_eq_slotsFrom, hcount]
    simp only [hout, if_true]
    rw [← List.tail_append_of_ne_nil hne, ← slotsFrom_qPut a hcap hq, slotsFrom_succ_first, List.tail_cons]

theorem qGet_inRange (hcap : cap ≤ z.maxQ) (hq : q.InRange cap) (h : qGet cap q = some (a, q')) :
    q'.InRange cap := by
  obtain ⟨_, _, rfl⟩ := qGet_some h
  exact ⟨hq.1, qNext_lt hcap (Nat.zero_lt_of_lt hq.1) _⟩

/-- A get takes the oldest live action (42_queue.md R141). -/
theorem qLive_of_qGet (hcap : cap ≤ z.maxQ) (hq : q.InRange cap) (h : qGet cap q = some (a, q')) :
    qLive cap q = a :: qLive cap q' := by
  have hrange := qGet_inRange hcap hq h
  obtain ⟨hne, rfl, rfl⟩ := qGet_some h
  have hlt := qCount_lt hq
  have hin := qCount_spec hq
  have hout := qNext_toNat hcap (Nat.zero_lt_of_lt hq.1) q.qout
  have hlive : qCount cap q ≠ 0 := fun hzero => hne <| BitVec.eq_of_toNat_eq <| by
    rw [← hin, hzero, Nat.add_zero, Nat.mod_eq_of_lt hq.2]
  obtain ⟨n, hn⟩ := Nat.exists_eq_succ_of_ne_zero hlive
  have hcount : qCount cap { q with qout := qNext cap q.qout } = n := by
    refine (qCount_eq_iff hrange (by omega)).mpr ?_
    simp only [hout]
    rw [Nat.mod_add_mod, ← hin, hn, Nat.add_assoc, Nat.add_comm 1]
  rw [qLive_eq_slotsFrom, qLive_eq_slotsFrom, hcount, hn, slotsFrom_succ_first, Nat.mod_eq_of_lt hq.2,
    BitVec.ofNat_toNat, BitVec.setWidth_eq]
  simp only [hout]

theorem qClear_inRange (hpos : 0 < cap) (q : Queue z) : (qClear q).InRange cap := by
  simp [Queue.InRange, hpos]

theorem qLive_qClear (cap : Nat) (q : Queue z) : qLive cap (qClear q) = [] := by
  simp [qLive, qCount]

end Ring

/-! ## Action words and cells -/

section Words

variable {z : Sizes}

@[simp] theorem actKindBits_packAction (i : KeyIndex z) (b : Bool) (k : Kind) :
    actKindBits (packAction i b k) = k.code := by
  ext j hj
  simp [actKindBits, packAction, BitVec.getLsbD_append, hj]

@[simp] theorem actIndex_packAction (i : KeyIndex z) (b : Bool) (k : Kind) :
    actIndex (packAction i b k) = i := by
  ext j hj
  simp [actIndex, packAction, BitVec.getLsbD_append, hj, show ¬3 + j < 2 by omega, show 3 + j - 2 - 1 = j by omega,
    show ¬3 + j - 2 < 1 by omega]

/-- A transition keeps the deadline of a Released cell at 0 (10_state.md R29). -/
theorem cellNext_released {w : Nat} (d p rt : BitVec w) {st : CellState} {t : BitVec w} (held : Bool) (now : BitVec w)
    (ht : st = .released → t = 0) (h : (cellNext d p rt st t held now).1 = .released) :
    (cellNext d p rt st t held now).2.1 = 0 := by
  cases st with
  | released =>
    cases held with
    | true => cases h
    | false => exact ht rfl
  | pressDebounce => simp only [cellNext] at h; split_ifs at h
  | pressed => simp only [cellNext] at h; split_ifs at h
  | repeating => simp only [cellNext] at h; split_ifs at h
  | releaseDebounce =>
    simp only [cellNext] at h ⊢
    split_ifs at h ⊢
    rfl

end Words

/-! ## What a command leaves unchanged (10_state.md R39) -/

section Frame

variable {z : Sizes}

/-- Flags, configuration and ports are as before; a scan, a queue command or a response changes none of them. -/
structure SettingsKept (s t : Block z) : Prop where
  ready : t.ready = s.ready
  cfgErr : t.cfgErr = s.cfgErr
  cfg : t.cfg = s.cfg
  latch : t.latch = s.latch
  shiftInd : t.shiftInd = s.shiftInd
  pins : t.pins = s.pins
  pending : t.pending = s.pending
  draws : t.draws = s.draws

theorem SettingsKept.refl (s : Block z) : SettingsKept s s := ⟨rfl, rfl, rfl, rfl, rfl, rfl, rfl, rfl⟩

theorem SettingsKept.trans {s t u : Block z} (h : SettingsKept s t) (k : SettingsKept t u) : SettingsKept s u :=
  ⟨k.ready.trans h.ready, k.cfgErr.trans h.cfgErr, k.cfg.trans h.cfg, k.latch.trans h.latch,
    k.shiftInd.trans h.shiftInd, k.pins.trans h.pins, k.pending.trans h.pending, k.draws.trans h.draws⟩

theorem settingsKept_respond (r : Response z) (s : Block z) : SettingsKept s (respond r s) :=
  ⟨rfl, rfl, rfl, rfl, rfl, rfl, rfl, rfl⟩

theorem settingsKept_logEvent (e : Event z) (s : Block z) : SettingsKept s (logEvent e s) :=
  ⟨rfl, rfl, rfl, rfl, rfl, rfl, rfl, rfl⟩

theorem settingsKept_driveRow (r : Nat) (b : Bool) (s : Block z) : SettingsKept s (driveRow r b s) :=
  ⟨rfl, rfl, rfl, rfl, rfl, rfl, rfl, rfl⟩

theorem settingsKept_writeCell (i : KeyIndex z) (out : CellState × Tick z × Option Kind) (s : Block z) :
    SettingsKept s (writeCell i out s).1 := by
  rcases writeCell_cases i out s with ⟨_, h⟩ | ⟨k, _, h⟩ <;> rw [h] <;> exact ⟨rfl, rfl, rfl, rfl, rfl, rfl, rfl, rfl⟩

@[simp] theorem writeCell_rowActive (i : KeyIndex z) (out : CellState × Tick z × Option Kind) (s : Block z) :
    (writeCell i out s).1.rowActive = s.rowActive := by
  rcases writeCell_cases i out s with ⟨_, h⟩ | ⟨k, _, h⟩ <;> rw [h]

@[simp] theorem writeCell_cells (i : KeyIndex z) (out : CellState × Tick z × Option Kind) (s : Block z) :
    (writeCell i out s).1.cells = cellSet s.cells i ⟨out.1.code, out.2.1⟩ := by
  rcases writeCell_cases i out s with ⟨_, h⟩ | ⟨k, _, h⟩ <;> rw [h]

/-- The block after the visit of row `r`, column `c`, whose cell is in state `st`, and whether its put reported
full (41_scan.md R125). -/
def visited (now : Tick z) (r c : Nat) (st : CellState) (s : Block z) : Block z × Bool :=
  writeCell (flatIndex s.cfg r c)
    (cellNext s.cfg.debounce s.cfg.rdelay s.cfg.rtime st (cellAt s.cells (flatIndex s.cfg r c)).next
      (reading s.pins r c) now)
    (logEvent (.sample s.rowActive r c (reading s.pins r c)) s)

variable {now : Tick z} {r c : Nat} {x y : Block z × FullCount z}

/-- A visit that completes has found one of the five cell states and stepped it. -/
theorem visitCell_ok (h : visitCell now r x c = .ok y) :
    ∃ st, CellState.ofCode? (cellAt x.1.cells (flatIndex x.1.cfg r c)).st = some st ∧
      y = ((visited now r c st x.1).1, if (visited now r c st x.1).2 then x.2 + 1 else x.2) := by
  rcases visitCell_cases now r c x with ⟨_, hv⟩ | ⟨st, hst, w, rfl, hv⟩
  · cases hv.symm.trans h
  · cases hv.symm.trans h
    exact ⟨st, hst, rfl⟩

/-- A row that completes is its columns between the two edges of its output (41_scan.md R127). -/
theorem visitRow_ok (h : visitRow now x r = .ok y) :
    ∃ w, (List.range x.1.cfg.cols.toNat).foldlM (visitCell now r) (driveRow r true x.1, x.2) = .ok w ∧
      y = (driveRow r false w.1, w.2) := by
  unfold visitRow at h
  cases hrow : (List.range x.1.cfg.cols.toNat).foldlM (visitCell now r) (driveRow r true x.1, x.2) with
  | error f => rw [hrow] at h; cases h
  | ok w => rw [hrow] at h; cases h; exact ⟨w, rfl, rfl⟩

theorem settingsKept_visitCell (h : visitCell now r x c = .ok y) : SettingsKept x.1 y.1 := by
  obtain ⟨st, _, rfl⟩ := visitCell_ok h
  exact (settingsKept_logEvent _ _).trans (settingsKept_writeCell _ _ _)

theorem visitCell_rowActive (h : visitCell now r x c = .ok y) : y.1.rowActive = x.1.rowActive := by
  obtain ⟨st, _, rfl⟩ := visitCell_ok h
  exact writeCell_rowActive _ _ _

variable {s u : Block z} {cnt : FullCount z}

theorem settingsKept_sweep (h : sweep now s = .ok (u, cnt)) : SettingsKept s u :=
  sweep_keeps (P := fun x => SettingsKept s x.1) (fun _ hx => hx.cfg)
    (fun _ _ _ _ hx => hx.trans (settingsKept_driveRow _ _ _))
    (fun _ _ _ _ _ _ hx hv => hx.trans (settingsKept_visitCell hv)) (SettingsKept.refl s) h

/-- Each row falls before the next one rises, so that no output is left active (10_state.md R36). -/
theorem sweep_rowActive (hidle : s.rowActive = 0) (h : sweep now s = .ok (u, cnt)) : u.rowActive = 0 := by
  refine foldlM_keeps (P := fun x => x.1.rowActive = 0) (fun x r y _ hx hrow => ?_) hidle h
  obtain ⟨w, hcols, rfl⟩ := visitRow_ok hrow
  have hw : w.1.rowActive = BitVec.twoPow z.maxRows r :=
    foldlM_keeps (P := fun w => w.1.rowActive = BitVec.twoPow z.maxRows r)
      (fun _ _ _ _ hw hv => (visitCell_rowActive hv).trans hw) (by simp [hx]) hcols
  simp [hw]

end Frame

/-! ## What each command can answer -/

section Answers

variable {z : Sizes} {s t : Block z}

/-- The two commands that take an action differ only in what they do with it: `NONE` on an empty queue, else `use`
on the oldest live action and the state without it (42_queue.md R144, 43_shift.md R175). -/
def takeAction (use : ActWord z → Block z → Host.Outcome (Block z) Fault Refusal) (s : Block z) :
    Host.Outcome (Block z) Fault Refusal :=
  match qGet s.qcap s.queue with
  | none => .next (respond (.ofStatus .none) s)
  | some (a, q) => use a { s with queue := q }

theorem exec_nextKey (s : Block z) :
    exec .nextKey ⟨z, s⟩ = inState (whenReady s (takeAction (fun a u => keyOutcome (resolve a u)) s)) := by
  simp only [exec, execNextKey, takeAction]
  cases qGet s.qcap s.queue <;> rfl

theorem exec_nextAction (s : Block z) :
    exec .nextAction ⟨z, s⟩ = inState (whenReady s (takeAction rawOutcome s)) := by
  simp only [exec, execNextAction, takeAction]
  cases qGet s.qcap s.queue <;> rfl

theorem exec_queueClear (s : Block z) :
    exec .queueClear ⟨z, s⟩ =
      inState (whenReady s (.next (respond (.ofStatus .ok) { s with queue := qClear s.queue }))) := rfl

theorem takeAction_of_none {use : ActWord z → Block z → Host.Outcome (Block z) Fault Refusal}
    (h : qGet s.qcap s.queue = none) : takeAction use s = .next (respond (.ofStatus .none) s) := by
  simp only [takeAction, h]

theorem takeAction_of_some {use : ActWord z → Block z → Host.Outcome (Block z) Fault Refusal} {a : ActWord z}
    {q : Queue z} (h : qGet s.qcap s.queue = some (a, q)) : takeAction use s = use a { s with queue := q } := by
  simp only [takeAction, h]

/-- A completed `NEXT_KEY` or `NEXT_ACTION` found the queue empty, or used its oldest live action. -/
theorem takeAction_next {use : ActWord z → Block z → Host.Outcome (Block z) Fault Refusal}
    (h : takeAction use s = .next t) :
    t = respond (.ofStatus .none) s ∨
      ∃ a q, qGet s.qcap s.queue = some (a, q) ∧ use a { s with queue := q } = .next t := by
  cases hget : qGet s.qcap s.queue with
  | none =>
    rw [takeAction_of_none hget] at h
    cases h
    exact .inl rfl
  | some x =>
    rw [takeAction_of_some hget] at h
    exact .inr ⟨x.1, x.2, rfl, h⟩

theorem rawOutcome_next {a : ActWord z} (h : rawOutcome a s = .next t) : t = respond (.rawAction a) s := by
  rcases rawOutcome_cases a s with ⟨_, hraw⟩ | ⟨_, hraw⟩ <;> cases hraw.symm.trans h
  rfl

/-- The response of `NEXT_KEY` to an action that yields the character `ch`, or none (30_encoding.md R74). -/
def keyResponse (ch : Option KeyChar) : Response z := ch.elim .drained .key

theorem keyResponse_status_wf (ch : Option KeyChar) : statusBitsWf (keyResponse ch : Response z).status = true := by
  cases ch <;> exact status_code_wf _

theorem keyOutcome_next {e : Except Fault (Block z × Option KeyChar)} (h : keyOutcome e = .next t) :
    ∃ u ch, e = .ok (u, ch) ∧ t = respond (keyResponse ch) u := by
  rcases e with _ | ⟨u, _ | ch⟩ <;> cases h
  · exact ⟨u, none, rfl, rfl⟩
  · exact ⟨u, some ch, rfl, rfl⟩

/-- Resolution writes at most the latch, and under Off never sets it (43_shift.md R164, R166). -/
theorem resolve_ok {a : ActWord z} {ch : Option KeyChar} (h : resolve a s = .ok (t, ch)) :
    t = s ∨ ∃ b, (s.policy = .off → b = false) ∧ t = setLatch b s := by
  rcases resolve_cases a s with ⟨_, hr⟩ | ⟨_, _, _, hr⟩ | ⟨_, _, hr⟩ | ⟨_, _, b, hb, hr⟩ | ⟨_, _, hr⟩ <;>
    cases hr.symm.trans h
  · exact .inr ⟨false, fun _ => rfl, rfl⟩
  · exact .inl rfl
  · refine .inr ⟨b, fun hoff => ?_, rfl⟩
    rw [hoff] at hb
    cases hb
  · split
    · exact .inr ⟨false, fun _ => rfl, rfl⟩
    · exact .inl rfl

/-- A completed `NEXT_KEY` on a queue that holds an action: one action taken, the latch perhaps written. -/
theorem nextKey_use_next {a : ActWord z} {q : Queue z}
    (h : keyOutcome (resolve a { s with queue := q }) = .next t) :
    ∃ ch, t = respond (keyResponse ch) { s with queue := q } ∨
      ∃ b, (s.policy = .off → b = false) ∧ t = respond (keyResponse ch) (setLatch b { s with queue := q }) := by
  obtain ⟨u, ch, hres, rfl⟩ := keyOutcome_next h
  rcases resolve_ok hres with rfl | ⟨b, hb, rfl⟩
  · exact ⟨ch, .inl rfl⟩
  · exact ⟨ch, .inr ⟨b, hb, rfl⟩⟩

end Answers

/-! ## Which command writes which state (10_state.md R39) -/

section Writes

variable {z : Sizes} {s t : Block z}

/-- A queue command or `NEXT_KEY` writes no cell, no slot and no output of a scan. -/
structure TablesKept (s t : Block z) : Prop where
  cells : t.cells = s.cells
  buf : t.queue.buf = s.queue.buf
  trace : t.trace = s.trace
  rowActive : t.rowActive = s.rowActive

theorem tablesKept_refusal (s : Block z) : TablesKept s (respondNotReady s) := ⟨rfl, rfl, rfl, rfl⟩

theorem settingsKept_refusal (s : Block z) : SettingsKept s (respondNotReady s) := settingsKept_respond _ s

theorem settingsKept_setQueue (s : Block z) (q : Queue z) : SettingsKept s { s with queue := q } :=
  ⟨rfl, rfl, rfl, rfl, rfl, rfl, rfl, rfl⟩

theorem scan_writes {i : Instr} {now : Tick z} (hi : scanTime s i = some now) (h : exec i ⟨z, s⟩ = .next ⟨z, t⟩) :
    SettingsKept s t := by
  rw [exec_scan hi, inState_eq_next_iff] at h
  rcases whenReady_next h with ⟨_, rfl⟩ | ⟨_, hscan⟩
  · exact settingsKept_refusal s
  · obtain ⟨_, _, u, cnt, hsweep, rfl⟩ := scanAt_next hscan
    exact (settingsKept_sweep hsweep).trans (settingsKept_respond _ u)

theorem nextAction_writes (h : exec .nextAction ⟨z, s⟩ = .next ⟨z, t⟩) :
    SettingsKept s t ∧ TablesKept s t ∧ t.queue.qin = s.queue.qin := by
  rw [exec_nextAction, inState_eq_next_iff] at h
  rcases whenReady_next h with ⟨_, rfl⟩ | ⟨_, htake⟩
  · exact ⟨settingsKept_refusal s, tablesKept_refusal s, rfl⟩
  rcases takeAction_next htake with rfl | ⟨a, q, hget, huse⟩
  · exact ⟨settingsKept_respond _ s, ⟨rfl, rfl, rfl, rfl⟩, rfl⟩
  · obtain ⟨_, _, rfl⟩ := qGet_some hget
    rw [rawOutcome_next huse]
    exact ⟨(settingsKept_setQueue s _).trans (settingsKept_respond _ _), ⟨rfl, rfl, rfl, rfl⟩, rfl⟩

theorem queueClear_writes (h : exec .queueClear ⟨z, s⟩ = .next ⟨z, t⟩) : SettingsKept s t ∧ TablesKept s t := by
  rw [exec_queueClear, inState_eq_next_iff] at h
  rcases whenReady_next h with ⟨_, rfl⟩ | ⟨_, hclear⟩
  · exact ⟨settingsKept_refusal s, tablesKept_refusal s⟩
  · cases hclear
    exact ⟨(settingsKept_setQueue s _).trans (settingsKept_respond _ _), ⟨rfl, rfl, rfl, rfl⟩⟩

/-- `NEXT_KEY` writes `QOUT`, and beyond that the latch with its indicator. -/
theorem nextKey_writes (h : exec .nextKey ⟨z, s⟩ = .next ⟨z, t⟩) :
    SettingsKept { s with latch := t.latch, shiftInd := t.shiftInd } t ∧ TablesKept s t ∧
      t.queue.qin = s.queue.qin := by
  rw [exec_nextKey, inState_eq_next_iff] at h
  rcases whenReady_next h with ⟨_, rfl⟩ | ⟨_, htake⟩
  · exact ⟨settingsKept_refusal s, tablesKept_refusal s, rfl⟩
  rcases takeAction_next htake with rfl | ⟨a, q, hget, huse⟩
  · exact ⟨settingsKept_respond _ s, ⟨rfl, rfl, rfl, rfl⟩, rfl⟩
  obtain ⟨_, _, rfl⟩ := qGet_some hget
  obtain ⟨ch, rfl | ⟨b, _, rfl⟩⟩ := nextKey_use_next huse <;>
    exact ⟨⟨rfl, rfl, rfl, rfl, rfl, rfl, rfl, rfl⟩, ⟨rfl, rfl, rfl, rfl⟩, rfl⟩

theorem configure_writes (h : exec .configure ⟨z, s⟩ = .next ⟨z, t⟩) :
    t.pins = s.pins ∧ t.pending = s.pending ∧ t.rowActive = s.rowActive := by
  rcases execConfigure_cases s with ⟨e, _, hc⟩ | ⟨_, hc⟩ <;> cases hc.symm.trans h <;> exact ⟨rfl, rfl, rfl⟩

end Writes

/-- Settles O51: the write table of R39 read off command by command from the `…_writes` lemmas. -/
theorem eachCommandWritesOnlyItsState : Obligations.EachCommandWritesOnlyItsState := by
  intro z i s t h
  cases i with
  | nop => cases h; simp
  | configure =>
    obtain ⟨hpins, hpending, hrows⟩ := configure_writes h
    simp [hpins, hpending, hrows]
  | scan now =>
    have k := scan_writes rfl h
    simp [k.ready, k.cfgErr, k.cfg, k.latch, k.shiftInd, k.pins, k.pending, k.draws]
  | scanTick =>
    have k := scan_writes rfl h
    simp [k.ready, k.cfgErr, k.cfg, k.latch, k.shiftInd, k.pins, k.pending, k.draws]
  | nextKey =>
    obtain ⟨k, tb, hqin⟩ := nextKey_writes h
    simp [k.ready, k.cfgErr, k.cfg, k.pins, k.pending, k.draws, tb.cells, tb.buf, tb.trace, tb.rowActive, hqin]
  | nextAction =>
    obtain ⟨k, tb, hqin⟩ := nextAction_writes h
    simp [k.ready, k.cfgErr, k.cfg, k.latch, k.shiftInd, k.pins, k.pending, k.draws, tb.cells, tb.buf, tb.trace,
      tb.rowActive, hqin]
  | queueClear =>
    obtain ⟨k, tb⟩ := queueClear_writes h
    simp [k.ready, k.cfgErr, k.cfg, k.latch, k.shiftInd, k.pins, k.pending, k.draws, tb.cells, tb.buf, tb.trace,
      tb.rowActive]

/-! ## When a scan stops (10_state.md R27) -/

section Stops

variable {z : Sizes} {now : Tick z} {r c : Nat} {x y : Block z × FullCount z} {s : Block z}

/-- A loop that keeps `P` does not complete when one of its turns cannot complete from `P`. -/
theorem foldlM_stops {α β ε : Type} {f : β → α → Except ε β} {P : β → Prop} {l : List α} {a : α} (ha : a ∈ l)
    (hkeep : ∀ x b y, b ∈ l → P x → f x b = .ok y → P y) (hstop : ∀ x y, P x → f x a ≠ .ok y) {x : β}
    (hx : P x) (y : β) : l.foldlM f x ≠ .ok y := by
  obtain ⟨before, after, rfl⟩ := List.append_of_mem ha
  rw [List.foldlM_append]
  intro h
  cases hbefore : before.foldlM f x with
  | error e => rw [hbefore] at h; cases h
  | ok w =>
    have hw : P w := foldlM_keeps (fun x b y hb => hkeep x b y (List.mem_append_left _ hb)) hx hbefore
    rw [hbefore] at h
    change (a :: after).foldlM f w = .ok y at h
    rw [List.foldlM_cons] at h
    cases hturn : f w a with
    | error e => rw [hturn] at h; cases h
    | ok v => exact hstop w v hw hturn

/-- A visit writes the code of one of the five states to its cell, and to no other. -/
theorem visitCell_cells (h : visitCell now r x c = .ok y) :
    ∃ (st : CellState) (t : Tick z), y.1.cells = cellSet x.1.cells (flatIndex x.1.cfg r c) ⟨st.code, t⟩ := by
  obtain ⟨st, _, rfl⟩ := visitCell_ok h
  exact ⟨_, _, writeCell_cells _ _ _⟩

theorem visitCell_completes (h : (cellAt x.1.cells (flatIndex x.1.cfg r c)).st.toNat < 5) :
    ∃ y, visitCell now r x c = .ok y := by
  rcases visitCell_cases now r c x with ⟨hbad, _⟩ | ⟨_, _, _, _, hv⟩
  · have := (cellState_ofCode?_eq_none_iff _).mp hbad
    omega
  · exact ⟨_, hv⟩

theorem visitCell_stops (h : 5 ≤ (cellAt x.1.cells (flatIndex x.1.cfg r c)).st.toNat) :
    visitCell now r x c ≠ .ok y := by
  intro hv
  obtain ⟨st, hst, _⟩ := visitCell_ok hv
  rw [(cellState_ofCode?_eq_none_iff _).mpr h] at hst
  cases hst

theorem sweep_completes_of_cells (hr : s.cfg.rows.toNat ≤ z.maxRows) (hc : s.cfg.cols.toNat ≤ z.maxCols)
    (hcells : ∀ n : KeyIndex z, n.toNat < s.ncells → (cellAt s.cells n).st.toNat < 5) :
    ∃ y, sweep now s = .ok y := by
  suffices h : ∃ y, sweep now s = .ok y ∧
      (y.1.cfg = s.cfg ∧ ∀ n : KeyIndex z, n.toNat < s.ncells → (cellAt y.1.cells n).st.toNat < 5) from
    h.imp fun _ => And.left
  refine sweep_completes (fun _ hx => hx.1) (fun _ _ _ _ hx => hx) (fun x r c hr' hc' ⟨hcfg, hx⟩ => ?_) ⟨rfl, hcells⟩
  obtain ⟨hidx, hlt, hle⟩ := flatIndex_toNat s.cfg hr hc hr' hc'
  obtain ⟨y, hy⟩ := visitCell_completes (now := now) (by rw [hcfg]; exact hx (flatIndex s.cfg r c) (hidx ▸ hlt))
  refine ⟨y, hy, (settingsKept_visitCell hy).cfg.trans hcfg, fun n hn => ?_⟩
  obtain ⟨st, t, hwrite⟩ := visitCell_cells hy
  rw [hwrite, hcfg, cellAt_cellSet _ _ _ (hidx ▸ lt_of_lt_of_le hlt hle)]
  split
  · exact of_decide_eq_true (cellState_code_wf st)
  · exact hx n hn

/-- The sweep of `s` has not come past cell `n`, whose code is none of the five states. -/
structure BadCellAhead (s : Block z) (n : KeyIndex z) (x : Block z × FullCount z) : Prop where
  cfg : x.1.cfg = s.cfg
  bad : 5 ≤ (cellAt x.1.cells n).st.toNat

variable {n : KeyIndex z}

theorem badCellAhead_visitCell (hx : BadCellAhead s n x) (hv : visitCell now r x c = .ok y) :
    BadCellAhead s n y := by
  obtain ⟨st, t, hwrite⟩ := visitCell_cells hv
  have hother : flatIndex x.1.cfg r c ≠ n := fun heq => visitCell_stops (heq ▸ hx.bad) hv
  refine ⟨(settingsKept_visitCell hv).cfg.trans hx.cfg, ?_⟩
  rw [hwrite, cellAt_cellSet_ne _ _ hother]
  exact hx.bad

theorem badCellAhead_driveRow {b : Bool} (hx : BadCellAhead s n x) : BadCellAhead s n (driveRow r b x.1, x.2) :=
  ⟨hx.cfg, hx.bad⟩

theorem badCellAhead_visitRow (hx : BadCellAhead s n x) (hv : visitRow now x r = .ok y) : BadCellAhead s n y := by
  obtain ⟨w, hcolumns, rfl⟩ := visitRow_ok hv
  exact badCellAhead_driveRow
    (foldlM_keeps (fun _ _ _ _ => badCellAhead_visitCell) (badCellAhead_driveRow hx) hcolumns)

/-- Every cell in use stands at some row and column of the matrix (20_memory.md R51). -/
theorem exists_flatIndex_eq (g : ConfigRegs z) (hr : g.rows.toNat ≤ z.maxRows) (hc : g.cols.toNat ≤ z.maxCols)
    (hn : n.toNat < g.ncells) : ∃ r c, r < g.rows.toNat ∧ c < g.cols.toNat ∧ flatIndex g r c = n := by
  have hcols : 0 < g.cols.toNat := Nat.pos_of_mul_pos_left (lt_of_le_of_lt (Nat.zero_le _) hn)
  have hrow : n.toNat / g.cols.toNat < g.rows.toNat := (Nat.div_lt_iff_lt_mul hcols).mpr hn
  have hcol : n.toNat % g.cols.toNat < g.cols.toNat := Nat.mod_lt _ hcols
  exact ⟨_, _, hrow, hcol,
    keyIndex_eq_of_toNat ((flatIndex_toNat g hr hc hrow hcol).1.trans (Nat.div_add_mod' _ _))⟩

/-- A cell with a bad code keeps it until the sweep comes to that cell, and stops the sweep there. -/
theorem sweep_stops_at_bad_cell (hr : s.cfg.rows.toNat ≤ z.maxRows) (hc : s.cfg.cols.toNat ≤ z.maxCols)
    (hn : n.toNat < s.ncells) (hbad : 5 ≤ (cellAt s.cells n).st.toNat) : sweep now s ≠ .ok y := by
  obtain ⟨r, c, hrow, hcol, rfl⟩ := exists_flatIndex_eq s.cfg hr hc hn
  have hcell (x y) (hx : BadCellAhead s (flatIndex s.cfg r c) x) : visitCell now r x c ≠ .ok y :=
    visitCell_stops (by rw [hx.cfg]; exact hx.bad)
  refine foldlM_stops (List.mem_range.mpr hrow) (fun _ _ _ _ => badCellAhead_visitRow) (fun x y hx hy => ?_)
    ⟨rfl, hbad⟩ y
  obtain ⟨w, hcolumns, rfl⟩ := visitRow_ok hy
  rw [hx.cfg] at hcolumns
  exact foldlM_stops (f := visitCell now r) (List.mem_range.mpr hcol) (fun _ _ _ _ => badCellAhead_visitCell) hcell
    (badCellAhead_driveRow hx) w hcolumns

theorem scanAt_completes_iff :
    (∃ t, scanAt now s = .next t) ↔
      s.cfg.rows.toNat ≤ z.maxRows ∧ s.cfg.cols.toNat ≤ z.maxCols ∧
        ∀ n : KeyIndex z, n.toNat < s.ncells → (cellAt s.cells n).st.toNat < 5 := by
  constructor
  · rintro ⟨t, h⟩
    obtain ⟨hr, hc, u, cnt, hsweep, _⟩ := scanAt_next h
    exact ⟨hr, hc, fun n hn => lt_of_not_ge fun hbad => sweep_stops_at_bad_cell hr hc hn hbad hsweep⟩
  · rintro ⟨hr, hc, hcells⟩
    obtain ⟨⟨u, cnt⟩, hsweep⟩ := sweep_completes_of_cells (now := now) hr hc hcells
    exact ⟨_, by rw [scanAt, if_neg (by omega), hsweep]⟩

end Stops

/-- Settles O35: a scan that is not refused completes exactly on a built matrix whose cells in use hold one of the
five states (`scanAt_completes_iff`). -/
theorem scanStopsOnlyOnImpossibleValues : Obligations.ScanStopsOnlyOnImpossibleValues := by
  intro z s i now hi
  rw [exec_scan hi]
  cases hready : s.ready with
  | false => simp [whenReady_of_not_ready hready]
  | true =>
    have hstop : (∀ t, inState (scanAt now s) ≠ .next t) ↔ ¬∃ t, scanAt now s = .next t := by
      refine not_exists.symm.trans (not_congr ⟨fun ⟨t, ht⟩ => ?_, fun ⟨t, ht⟩ => ⟨⟨z, t⟩, by rw [ht]; rfl⟩⟩)
      obtain ⟨b, hb, _⟩ := inState_eq_next ht
      exact ⟨b, hb⟩
    rw [whenReady_of_ready hready, hstop, scanAt_completes_iff]
    simp only [true_and, not_and_or, not_le, not_forall, not_lt, exists_prop, ncells_def, ConfigRegs.ncells]

/-! ## The keyboard of a configured block (10_state.md R24 to R32) -/

section Keyboard

variable {z : Sizes} {g : ConfigRegs z} {v : Vector (Cell z) z.maxCells} {q q' : Queue z}

/-- The part of the invariant that every turn of a scan keeps: what a configuration, its cell table and its queue
hold while `READY = 1`. -/
structure KeyboardLegal (g : ConfigRegs z) (v : Vector (Cell z) z.maxCells) (q : Queue z) : Prop where
  config : g.Legal
  queue_range : q.InRange g.qcap.toNat
  cells : ∀ i : KeyIndex z, i.toNat < g.ncells → (cellAt v i).Legal
  live : ∀ a ∈ qLive g.qcap.toNat q, ActionLegal g a

theorem ncells_le_maxCells (h : g.Legal) : g.ncells ≤ z.maxCells := Nat.mul_le_mul h.rows_le h.cols_le

theorem KeyboardLegal.setCell (h : KeyboardLegal g v q) {i : KeyIndex z} (hi : i.toNat < g.ncells) {c : Cell z}
    (hc : c.Legal) : KeyboardLegal g (cellSet v i c) q := by
  refine { h with cells := fun j hj => ?_ }
  rw [cellAt_cellSet _ _ _ (lt_of_lt_of_le hi (ncells_le_maxCells h.config))]
  split
  · exact hc
  · exact h.cells j hj

theorem KeyboardLegal.put (h : KeyboardLegal g v q) {a : ActWord z} (ha : ActionLegal g a) :
    KeyboardLegal g v (qPut g.qcap.toNat a q).1 := by
  refine { h with queue_range := qPut_inRange a h.config.qcap_le h.queue_range, live := fun x hx => ?_ }
  rw [qLive_qPut a h.config.qcap_ge h.config.qcap_le h.queue_range, List.mem_append, List.mem_singleton] at hx
  rcases hx with hold | rfl
  · refine h.live x ?_
    split at hold
    · exact List.mem_of_mem_tail hold
    · exact hold
  · exact ha

theorem KeyboardLegal.get (h : KeyboardLegal g v q) {a : ActWord z} (hget : qGet g.qcap.toNat q = some (a, q')) :
    ActionLegal g a ∧ KeyboardLegal g v q' := by
  have hlive := h.live
  rw [qLive_of_qGet h.config.qcap_le h.queue_range hget, List.forall_mem_cons] at hlive
  exact ⟨hlive.1, { h with queue_range := qGet_inRange h.config.qcap_le h.queue_range hget, live := hlive.2 }⟩

theorem KeyboardLegal.clear (h : KeyboardLegal g v q) : KeyboardLegal g v (qClear q) where
  config := h.config
  queue_range := qClear_inRange (lt_of_lt_of_le two_pos h.config.qcap_ge) q
  cells := h.cells
  live := by simp [qLive_qClear]

/-- A cell in use that comes to be Released has the deadline 0 (10_state.md R29). -/
theorem KeyboardLegal.released_next (h : KeyboardLegal g v q) {i : KeyIndex z} (hi : i.toNat < g.ncells)
    {st : CellState} (hst : CellState.ofCode? (cellAt v i).st = some st) {d p rt now : Tick z} {held : Bool} :
    (cellNext d p rt st (cellAt v i).next held now).1 = .released →
      (cellNext d p rt st (cellAt v i).next held now).2.1 = 0 := by
  refine cellNext_released d p rt held now fun hrel => (h.cells i hi).2 ?_
  rw [(cellState_ofCode?_eq_some_iff _ _).mp hst, hrel]

theorem actionLegal_packAction {i : KeyIndex z} (hi : i.toNat < g.ncells) (b : Bool) (k : Kind) :
    ActionLegal g (packAction i b k) := by
  simp [ActionLegal, hi]

variable {s : Block z}

/-- Writing the transition of a cell in use, and putting the action it emits, keeps the keyboard legal. -/
theorem KeyboardLegal.writeCell (h : KeyboardLegal s.cfg s.cells s.queue) {i : KeyIndex z} (hi : i.toNat < s.ncells)
    (out : CellState × Tick z × Option Kind) (hout : out.1 = .released → out.2.1 = 0) :
    KeyboardLegal (writeCell i out s).1.cfg (writeCell i out s).1.cells (writeCell i out s).1.queue := by
  have hcell : KeyboardLegal s.cfg (cellSet s.cells i ⟨out.1.code, out.2.1⟩) s.queue :=
    h.setCell hi ⟨cellState_code_wf _, fun hst => hout ((cellState_code_released_iff _).mp hst)⟩
  rcases writeCell_cases i out s with ⟨_, hw⟩ | ⟨k, _, hw⟩ <;> rw [hw]
  · exact hcell
  · exact hcell.put (actionLegal_packAction hi _ _)

variable {now : Tick z} {r c : Nat} {x y : Block z × FullCount z} {u : Block z} {cnt : FullCount z}

theorem KeyboardLegal.visitCell (h : KeyboardLegal x.1.cfg x.1.cells x.1.queue) (hr : r < x.1.cfg.rows.toNat)
    (hc : c < x.1.cfg.cols.toNat) (hv : visitCell now r x c = .ok y) :
    KeyboardLegal y.1.cfg y.1.cells y.1.queue := by
  obtain ⟨st, hst, rfl⟩ := visitCell_ok hv
  obtain ⟨hidx, hlt, _⟩ := flatIndex_toNat x.1.cfg h.config.rows_le h.config.cols_le hr hc
  have hi : (flatIndex x.1.cfg r c).toNat < x.1.cfg.ncells := hidx ▸ hlt
  exact KeyboardLegal.writeCell (s := logEvent _ x.1) h hi _ (h.released_next hi hst)

theorem KeyboardLegal.sweep (h : KeyboardLegal s.cfg s.cells s.queue) (hsweep : sweep now s = .ok (u, cnt)) :
    KeyboardLegal u.cfg u.cells u.queue := by
  refine (sweep_keeps (P := fun x => x.1.cfg = s.cfg ∧ KeyboardLegal x.1.cfg x.1.cells x.1.queue)
    (fun _ hx => hx.1) (fun _ _ _ _ hx => hx) (fun x r c y hr hc hx hv => ?_) ⟨rfl, h⟩ hsweep).2
  exact ⟨(settingsKept_visitCell hv).cfg.trans hx.1, hx.2.visitCell (hx.1 ▸ hr) (hx.1 ▸ hc) hv⟩

end Keyboard

/-! ## The invariant (10_state.md) -/

section Invariant

variable {z : Sizes} {s t : Block z}

theorem inv_keyboard (h : s.Inv) (hr : s.ready = true) : KeyboardLegal s.cfg s.cells s.queue :=
  ⟨h.config hr, h.queue_range hr, h.cells hr, h.live hr⟩

/-- While `READY = 0` only the flags and the outputs are bound. -/
theorem inv_of_not_ready (hr : s.ready = false) (hrows : s.rowActive = 0) (hind : s.shiftInd = false)
    (herr : cfgErrBitsWf s.cfgErr = true) (hlatch : s.latch = false)
    (hrsp : ∀ r, s.rsp = some r → statusBitsWf r.status = true) : s.Inv where
  rows_idle := hrows
  indicator := by rw [hind, hr]; rfl
  err_code := herr
  ready_no_err := by simp [hr]
  latch_unready _ := hlatch
  latch_off := by simp [hr]
  config := by simp [hr]
  queue_range := by simp [hr]
  cells := by simp [hr]
  live := by simp [hr]
  status := hrsp

theorem inv_of_ready (hr : s.ready = true) (hrows : s.rowActive = 0)
    (hind : s.shiftInd = (s.ready && s.cfg.indPresent && s.latch)) (herr : s.cfgErr = 0)
    (hoff : s.policy = .off → s.latch = false) (hkb : KeyboardLegal s.cfg s.cells s.queue)
    (hrsp : ∀ r, s.rsp = some r → statusBitsWf r.status = true) : s.Inv where
  rows_idle := hrows
  indicator := hind
  err_code := by rw [herr]; rfl
  ready_no_err _ := herr
  latch_unready h := by simp [hr] at h
  latch_off _ := hoff
  config _ := hkb.config
  queue_range _ := hkb.queue_range
  cells _ := hkb.cells
  live _ := hkb.live
  status := hrsp

/-- A response binds only its status. -/
theorem inv_respond {r : Response z} (hr : statusBitsWf r.status = true) (h : s.Inv) : (respond r s).Inv :=
  { h with status := fun _ e => Option.some.inj e ▸ hr }

theorem inv_refusal (h : s.Inv) : (respondNotReady s).Inv := inv_respond (status_code_wf _) h

theorem inv_accept (h : s.Inv) : (accept s).Inv := { h with status := nofun }

/-- Between steps only the ports move. -/
theorem advance_eq (s : Block z) :
    advance s = { s with pins := (advance s).pins, pending := (advance s).pending } := by
  unfold advance
  split <;> rfl

theorem inv_advance (h : s.Inv) : (advance s).Inv := by
  rw [advance_eq]
  exact { h with }

theorem inv_powerOnReset (s : Block z) : (powerOnReset s).Inv := inv_of_not_ready rfl rfl rfl rfl rfl nofun

/-- What a configured block does to its cells and its queue alone keeps the invariant when the keyboard stays
legal. -/
theorem inv_of_settingsKept (h : s.Inv) (hr : s.ready = true) (k : SettingsKept s t) (hrows : t.rowActive = 0)
    (hkb : KeyboardLegal t.cfg t.cells t.queue) (hrsp : ∀ r, t.rsp = some r → statusBitsWf r.status = true) :
    t.Inv := by
  refine inv_of_ready (k.ready.trans hr) hrows ?_ (k.cfgErr.trans (h.ready_no_err hr)) ?_ hkb hrsp
  · rw [k.shiftInd, k.ready, k.cfg, k.latch]
    exact h.indicator
  · rw [k.latch, policy_def, k.cfg]
    exact h.latch_off hr

theorem inv_setQueue {q : Queue z} (h : s.Inv) (hr : s.ready = true) (hq : KeyboardLegal s.cfg s.cells q) :
    Block.Inv { s with queue := q } :=
  inv_of_settingsKept h hr (settingsKept_setQueue s q) h.rows_idle hq h.status

theorem inv_setLatch {b : Bool} (h : s.Inv) (hr : s.ready = true) (hb : s.policy = .off → b = false) :
    (setLatch b s).Inv :=
  inv_of_ready hr h.rows_idle rfl (h.ready_no_err hr) hb (inv_keyboard (s := s) h hr) h.status

/-! ### The commands -/

theorem inv_whenReady {o : Host.Outcome (Block z) Fault Refusal} (h : s.Inv)
    (ho : s.ready = true → o = .next t → t.Inv) (hn : whenReady s o = .next t) : t.Inv := by
  rcases whenReady_next hn with ⟨_, rfl⟩ | ⟨hr, hnext⟩
  · exact inv_refusal h
  · exact ho hr hnext

theorem inv_scanAt {now : Tick z} (h : s.Inv) (hr : s.ready = true) (hn : scanAt now s = .next t) : t.Inv := by
  obtain ⟨_, _, u, cnt, hsweep, rfl⟩ := scanAt_next hn
  have hkb := (inv_keyboard h hr).sweep hsweep
  have hrows := sweep_rowActive h.rows_idle hsweep
  exact inv_of_settingsKept h hr ((settingsKept_sweep hsweep).trans (settingsKept_respond _ u)) hrows hkb
    fun _ e => Option.some.inj e ▸ status_code_wf _

/-- A command that takes an action keeps the invariant when its use of the action does. -/
theorem inv_takeAction {use : ActWord z → Block z → Host.Outcome (Block z) Fault Refusal} (h : s.Inv)
    (hr : s.ready = true)
    (huse : ∀ a q, Block.Inv { s with queue := q } → use a { s with queue := q } = .next t → t.Inv)
    (hn : takeAction use s = .next t) : t.Inv := by
  rcases takeAction_next hn with rfl | ⟨a, q, hget, hnext⟩
  · exact inv_respond (status_code_wf _) h
  · exact huse a q (inv_setQueue h hr ((inv_keyboard h hr).get hget).2) hnext

theorem inv_nextKey_use {a : ActWord z} {q : Queue z} (hr : s.ready = true) (h : Block.Inv { s with queue := q })
    (hn : keyOutcome (resolve a { s with queue := q }) = .next t) : t.Inv := by
  obtain ⟨ch, rfl | ⟨b, hb, rfl⟩⟩ := nextKey_use_next hn
  · exact inv_respond (keyResponse_status_wf ch) h
  · exact inv_respond (keyResponse_status_wf ch) (inv_setLatch h hr hb)

theorem inv_rejectConfig (e : CfgError) (h : s.Inv) : (rejectConfig e s).Inv :=
  inv_of_not_ready rfl h.rows_idle rfl (cfgError_code_wf e) rfl h.status

/-- A configuration that passes every check of 44_configure.md R191 is legal. -/
theorem loadConfig_legal {c : CfgInputs z} (h : checkConfig c = none) : (loadConfig c).Legal := by
  have hrows := checkConfig_none h .badRows
  have hcols := checkConfig_none h .badCols
  have hqcap := checkConfig_none h .badQcap
  have htime := checkConfig_none h .badTime
  have hkey := checkConfig_none h .noShiftKey
  have hmap := checkConfig_none h .noSmap
  simp only [cfgFails, decide_eq_false_iff_not, not_or, not_and, not_le, not_lt, Bool.not_eq_false]
    at hrows hcols hqcap htime hkey hmap
  obtain ⟨hdebounce, hrdelay, hrtime⟩ := htime
  exact
    { rows_pos := Nat.pos_of_ne_zero hrows.1, rows_le := hrows.2
      cols_pos := Nat.pos_of_ne_zero hcols.1, cols_le := hcols.2
      qcap_ge := hqcap.1, qcap_le := hqcap.2
      debounce_lt := hdebounce, rdelay_lt := hrdelay, rtime_lt := hrtime
      shift_key := hkey, shift_map := hmap }

theorem cellAt_initCells {n : Nat} (v : Vector (Cell z) z.maxCells) {i : KeyIndex z} (hi : i.toNat < n)
    (hn : n ≤ z.maxCells) : cellAt (initCells n v) i = ⟨CellState.released.code, 0⟩ := by
  rw [initCells, cellAt_ofFn _ (lt_of_lt_of_le hi hn), if_pos hi]

theorem inv_acceptConfig {c : CfgInputs z} (hc : checkConfig c = none) (h : s.Inv) : (acceptConfig c s).Inv := by
  have hlegal := loadConfig_legal hc
  refine inv_of_ready rfl h.rows_idle rfl rfl (fun _ => rfl) ?_ h.status
  change KeyboardLegal (loadConfig c) (initCells (loadConfig c).ncells s.cells) (qClear s.queue)
  refine ⟨hlegal, qClear_inRange (lt_of_lt_of_le two_pos hlegal.qcap_ge) _, fun i hi => ?_, by simp [qLive_qClear]⟩
  rw [cellAt_initCells _ hi (ncells_le_maxCells hlegal)]
  exact ⟨cellState_code_wf _, fun _ => rfl⟩

theorem inv_configure (h : s.Inv) (hn : execConfigure ⟨z, s⟩ = .next ⟨z, t⟩) : t.Inv := by
  rcases execConfigure_cases s with ⟨e, _, hc⟩ | ⟨hcheck, hc⟩ <;> cases hc.symm.trans hn
  · exact inv_respond (status_code_wf _) (inv_rejectConfig e h)
  · exact inv_respond (status_code_wf _) (inv_acceptConfig hcheck h)

theorem inv_exec {i : Instr} (h : s.Inv) (hn : exec i ⟨z, s⟩ = .next ⟨z, t⟩) : t.Inv := by
  have hscan {now : Tick z} (hi : scanTime s i = some now) : t.Inv := by
    rw [exec_scan hi, inState_eq_next_iff] at hn
    exact inv_whenReady h (inv_scanAt h) hn
  cases i with
  | nop => cases hn; exact inv_respond (status_code_wf _) h
  | configure => exact inv_configure h hn
  | scan now => exact hscan rfl
  | scanTick => exact hscan rfl
  | nextKey =>
    rw [exec_nextKey, inState_eq_next_iff] at hn
    exact inv_whenReady h (fun hr => inv_takeAction h hr fun _ _ => inv_nextKey_use hr) hn
  | nextAction =>
    rw [exec_nextAction, inState_eq_next_iff] at hn
    refine inv_whenReady h (fun hr => inv_takeAction h hr fun a q hq huse => ?_) hn
    rw [rawOutcome_next huse]
    exact inv_respond (status_code_wf _) hq
  | queueClear =>
    rw [exec_queueClear, inState_eq_next_iff] at hn
    refine inv_whenReady h (fun hr hclear => ?_) hn
    cases hclear
    exact inv_respond (status_code_wf _) (inv_setQueue h hr (inv_keyboard h hr).clear)

/-- A reserved opcode answers a response, every other command keeps the invariant by `inv_exec`. -/
theorem inv_runCommand (h : s.Inv) (hn : runCommand ⟨z, s⟩ = .next ⟨z, t⟩) : t.Inv := by
  rcases runCommand_cases s with ⟨op, _, hrun⟩ | ⟨i, _, hrun⟩ <;> rw [hrun] at hn
  · cases hn; exact inv_respond (status_code_wf _) h
  · exact inv_exec h hn

theorem inv_step {t : State} (h : s.Inv) (hn : step ⟨z, s⟩ = .next t) : t.block.Inv := by
  rcases step_next hn with ⟨_, rfl⟩ | ⟨_, _, rfl⟩ | ⟨_, _, u, hu, rfl⟩
  · exact inv_advance (inv_powerOnReset _)
  · exact inv_advance (inv_accept h)
  · exact inv_advance (inv_runCommand (inv_accept h) hu)

end Invariant

/-- Settles O55: a reset, an idle cycle and every command keep a legal block legal (`inv_step`), and no step changes
the sizes. -/
theorem everyStepKeepsInvariant : Obligations.EveryStepKeepsInvariant :=
  fun _ _ h hn => ⟨(step_next_sizes hn).symm ▸ h.sizes, inv_step h.block hn⟩

theorem inv_reset (z : Sizes) : (Block.reset z).Inv := inv_of_not_ready rfl rfl rfl rfl rfl nofun

/-- Settles O54: after power-on reset the block is not configured, and its flags and outputs are 0. -/
theorem invariantAtReset : Obligations.InvariantAtReset :=
  ⟨fun z hz => ⟨hz, inv_reset z⟩, defaults_wf, inv_reset _⟩

/-- Settles O12: the values of R40 stand in `Block.reset`, the defaults of R8 in `State.reset`. -/
theorem powerOnResetValues : Obligations.PowerOnResetValues :=
  ⟨fun _ => ⟨rfl, rfl, rfl, rfl, rfl, rfl⟩, rfl⟩

/-! ## What the host cannot tell apart (10_state.md R40) -/

section QueuesAgree

variable {z : Sizes} {cap : Nat} {q p : Queue z}

/-- Two queues of one capacity with the same indices and the same live actions: only dead slots differ. -/
structure QueueAgree (cap : Nat) (q p : Queue z) : Prop where
  qin : q.qin = p.qin
  qout : q.qout = p.qout
  live : qLive cap q = qLive cap p

theorem QueueAgree.inRange (h : QueueAgree cap q p) (hq : q.InRange cap) : p.InRange cap :=
  ⟨h.qin ▸ hq.1, h.qout ▸ hq.2⟩

/-- Whether a put reports full, and where it leaves the indices, hangs on the indices alone. -/
theorem QueueAgree.put_indices (h : QueueAgree cap q p) (a : ActWord z) :
    (qPut cap a q).2 = (qPut cap a p).2 ∧ (qPut cap a q).1.qin = (qPut cap a p).1.qin ∧
      (qPut cap a q).1.qout = (qPut cap a p).1.qout := by
  rw [qPut, qPut, h.qin, h.qout]
  split <;> exact ⟨rfl, rfl, rfl⟩

theorem QueueAgree.put (h : QueueAgree cap q p) (a : ActWord z) (hge : 2 ≤ cap) (hcap : cap ≤ z.maxQ)
    (hq : q.InRange cap) :
    (qPut cap a q).2 = (qPut cap a p).2 ∧ QueueAgree cap (qPut cap a q).1 (qPut cap a p).1 := by
  obtain ⟨hfull, hin, hout⟩ := h.put_indices a
  refine ⟨hfull, hin, hout, ?_⟩
  rw [qLive_qPut a hge hcap hq, qLive_qPut a hge hcap (h.inRange hq), hfull, h.live]

/-- A get finds both queues empty, or takes one and the same action from both. -/
theorem QueueAgree.get (h : QueueAgree cap q p) (hcap : cap ≤ z.maxQ) (hq : q.InRange cap) :
    (qGet cap q = none ∧ qGet cap p = none) ∨
      ∃ a q' p', qGet cap q = some (a, q') ∧ qGet cap p = some (a, p') ∧ QueueAgree cap q' p' := by
  by_cases hne : q.qin = q.qout
  · exact .inl ⟨(qGet_eq_none_iff _ _).mpr hne, (qGet_eq_none_iff _ _).mpr (h.qin ▸ h.qout ▸ hne)⟩
  · have hgq := qGet_of_ne (cap := cap) hne
    have hgp := qGet_of_ne (cap := cap) (q := p) (h.qin ▸ h.qout ▸ hne)
    have hlive := h.live
    rw [qLive_of_qGet hcap hq hgq, qLive_of_qGet hcap (h.inRange hq) hgp, List.cons.injEq] at hlive
    rw [← hlive.1] at hgp
    exact .inr ⟨_, _, _, hgq, hgp, h.qin, congrArg (qNext cap) h.qout, hlive.2⟩

theorem QueueAgree.clear (cap : Nat) (q p : Queue z) : QueueAgree cap (qClear q) (qClear p) :=
  ⟨rfl, rfl, (qLive_qClear cap q).trans (qLive_qClear cap p).symm⟩

end QueuesAgree

/-! ### The operations -/

section OperationsAgree

variable {z : Sizes} {s t : Block z}

theorem agree_qcap (h : s.Agree t) (hr : s.ready = true) : t.qcap = s.qcap := congrArg BitVec.toNat (h.cfg hr).qcap.symm

theorem agree_queue (h : s.Agree t) (hr : s.ready = true) : QueueAgree s.qcap s.queue t.queue :=
  ⟨h.qin hr, h.qout hr, agree_qcap h hr ▸ h.live hr⟩

/-- Not configured, blocks agree when their flags, outputs and ports do. -/
theorem agree_of_not_ready (hs : s.ready = false) (ht : t.ready = false) (herr : s.cfgErr = t.cfgErr)
    (hlatch : s.latch = t.latch) (hrows : s.rowActive = t.rowActive) (hind : s.shiftInd = t.shiftInd)
    (hrsp : s.rsp = t.rsp) (hpins : s.pins = t.pins) (hpending : s.pending = t.pending) (htrace : s.trace = t.trace) :
    s.Agree t where
  ready := hs.trans ht.symm
  cfgErr := herr
  latch := hlatch
  rowActive := hrows
  shiftInd := hind
  rsp := hrsp
  pins := hpins
  pending := hpending
  trace := htrace
  cfg := by simp [hs]
  cells := by simp [hs]
  qin := by simp [hs]
  qout := by simp [hs]
  live := by simp [hs]

theorem agree_respond (r : Response z) (h : s.Agree t) : (respond r s).Agree (respond r t) := { h with rsp := rfl }

theorem agree_logEvent (e : Event z) (h : s.Agree t) : (logEvent e s).Agree (logEvent e t) :=
  { h with trace := congrArg (· ++ [e]) h.trace }

theorem agree_driveRow (r : Nat) (b : Bool) (h : s.Agree t) : (driveRow r b s).Agree (driveRow r b t) :=
  { h with
    rowActive := by rw [driveRow_rowActive, driveRow_rowActive, h.rowActive]
    trace := congrArg (fun events => events ++ [Event.row r b]) h.trace }

theorem agree_accept (h : s.Agree t) : (accept s).Agree (accept t) := { h with rsp := rfl, trace := rfl }

theorem agree_setLatch (b : Bool) (h : s.Agree t) : (setLatch b s).Agree (setLatch b t) :=
  { h with
    latch := rfl
    shiftInd := by
      rw [setLatch_shiftInd, setLatch_shiftInd, ← h.ready]
      cases hr : s.ready with
      | false => rfl
      | true => rw [(h.cfg hr).indPresent] }

theorem agree_setQueue {q p : Queue z} (h : s.Agree t) (hr : s.ready = true) (hq : QueueAgree s.qcap q p) :
    Block.Agree { s with queue := q } { t with queue := p } :=
  { h with
    qin := fun _ => hq.qin
    qout := fun _ => hq.qout
    live := fun _ => hq.live.trans (congrArg (qLive · p) (agree_qcap h hr).symm) }

theorem agree_setCell {i : KeyIndex z} (c : Cell z) (h : s.Agree t) (hi : i.toNat < z.maxCells) :
    Block.Agree { s with cells := cellSet s.cells i c } { t with cells := cellSet t.cells i c } :=
  { h with
    cells := fun hr j hj => by
      change cellAt (cellSet s.cells i c) j = cellAt (cellSet t.cells i c) j
      rw [cellAt_cellSet _ _ _ hi, cellAt_cellSet _ _ _ hi, h.cells hr j hj] }

theorem agree_powerOnReset (h : s.Agree t) : (powerOnReset s).Agree (powerOnReset t) :=
  agree_of_not_ready rfl rfl rfl rfl rfl rfl rfl h.pins h.pending h.trace

theorem agree_advance (h : s.Agree t) : (advance s).Agree (advance t) := by
  have hports : (advance s).pins = (advance t).pins ∧ (advance s).pending = (advance t).pending := by
    cases hs : s.pending with
    | nil =>
      obtain ⟨hp, hn⟩ := advance_pins_idle s hs
      obtain ⟨hp', hn'⟩ := advance_pins_idle t (h.pending ▸ hs)
      exact ⟨by rw [hp, hp', h.pins], hn.trans hn'.symm⟩
    | cons p ps =>
      obtain ⟨hp, hn⟩ := advance_pins_next s p ps hs
      obtain ⟨hp', hn'⟩ := advance_pins_next t p ps (h.pending ▸ hs)
      exact ⟨hp.trans hp'.symm, hn.trans hn'.symm⟩
  rw [advance_eq s, advance_eq t]
  exact { h with pins := hports.1, pending := hports.2 }

end OperationsAgree

/-! ### Scans -/

section ScansAgree

variable {z : Sizes} {s t : Block z}

theorem emit_eq (i : KeyIndex z) (k : Kind) (s : Block z) {latch : Bool} {cap : Nat} (hlatch : s.latch = latch)
    (hcap : s.qcap = cap) :
    emit i k s =
      (logEvent (.put (packAction i latch k) (qPut cap (packAction i latch k) s.queue).2)
          { s with queue := (qPut cap (packAction i latch k) s.queue).1 },
        (qPut cap (packAction i latch k) s.queue).2) := by
  subst hlatch hcap
  rfl

theorem agree_emit (i : KeyIndex z) (k : Kind) (h : s.Agree t) (hr : s.ready = true)
    (hkb : KeyboardLegal s.cfg s.cells s.queue) :
    (emit i k s).1.Agree (emit i k t).1 ∧ (emit i k s).2 = (emit i k t).2 := by
  obtain ⟨hfull, hqueue⟩ := (agree_queue h hr).put (packAction i s.latch k) hkb.config.qcap_ge hkb.config.qcap_le
    hkb.queue_range
  rw [emit_eq i k t h.latch.symm (agree_qcap h hr), emit_eq i k s rfl rfl, ← hfull]
  exact ⟨agree_logEvent _ (agree_setQueue h hr hqueue), rfl⟩

theorem agree_writeCell {i : KeyIndex z} (out : CellState × Tick z × Option Kind) (h : s.Agree t)
    (hr : s.ready = true) (hkb : KeyboardLegal s.cfg s.cells s.queue) (hi : i.toNat < s.ncells)
    (hout : out.1 = .released → out.2.1 = 0) :
    (writeCell i out s).1.Agree (writeCell i out t).1 ∧ (writeCell i out s).2 = (writeCell i out t).2 := by
  have hcells := agree_setCell ⟨out.1.code, out.2.1⟩ h (lt_of_lt_of_le hi (ncells_le_maxCells hkb.config))
  unfold writeCell
  split
  · exact ⟨hcells, rfl⟩
  · refine agree_emit i _ hcells hr (hkb.setCell hi ⟨cellState_code_wf _, fun hst => hout ?_⟩)
    exact (cellState_code_released_iff _).mp hst

end ScansAgree

/-! ### The sweep, in two blocks at once -/

section SweepsAgree

variable {z : Sizes} {s t : Block z}

/-- Two loops over one list keep a relation that every pair of turns keeps. -/
theorem foldlM_related {α β ε : Type} {f : β → α → Except ε β} {R : β → β → Prop} {l : List α}
    (hturn : ∀ x x' a y y', a ∈ l → R x x' → f x a = .ok y → f x' a = .ok y' → R y y') {x x' y y' : β}
    (hx : R x x') (h : l.foldlM f x = .ok y) (h' : l.foldlM f x' = .ok y') : R y y' := by
  induction l generalizing x x' with
  | nil => cases h; cases h'; exact hx
  | cons a l ih =>
    rw [List.foldlM_cons] at h h'
    cases ha : f x a with
    | error e => rw [ha] at h; cases h
    | ok w =>
      cases ha' : f x' a with
      | error e => rw [ha'] at h'; cases h'
      | ok w' =>
        rw [ha] at h
        rw [ha'] at h'
        exact ih (fun x x' b y y' hb => hturn x x' b y y' (List.mem_cons_of_mem a hb))
          (hturn x x' a w w' List.mem_cons_self hx ha ha') h h'

/-- Two sweeps under way, the left one started from `s`: equal counts, blocks that agree, a legal keyboard. -/
structure SweepAgree (s : Block z) (x y : Block z × FullCount z) : Prop where
  cfg : x.1.cfg = s.cfg
  ready : x.1.ready = true
  keyboard : KeyboardLegal x.1.cfg x.1.cells x.1.queue
  agree : x.1.Agree y.1
  count : x.2 = y.2

variable {now : Tick z} {r c : Nat} {x x' y y' : Block z × FullCount z}

theorem sweepAgree_driveRow (b : Bool) (h : SweepAgree s x y) :
    SweepAgree s (driveRow r b x.1, x.2) (driveRow r b y.1, y.2) :=
  ⟨h.cfg, h.ready, h.keyboard, agree_driveRow r b h.agree, h.count⟩

theorem flatIndex_agree {g h : ConfigRegs z} (hg : g.Agree h) (r c : Nat) : flatIndex g r c = flatIndex h r c := by
  rw [flatIndex, flatIndex, hg.cols]

/-- A visit reads its cell, its reading and the time parameters alone, in which agreeing blocks are equal. -/
theorem visited_agree {st : CellState} (h : s.Agree t) (hr : s.ready = true)
    (hkb : KeyboardLegal s.cfg s.cells s.queue) (hi : (flatIndex s.cfg r c).toNat < s.ncells)
    (hst : CellState.ofCode? (cellAt s.cells (flatIndex s.cfg r c)).st = some st) :
    (visited now r c st s).1.Agree (visited now r c st t).1 ∧ (visited now r c st s).2 = (visited now r c st t).2 := by
  have hcfg := h.cfg hr
  unfold visited
  rw [← flatIndex_agree hcfg, ← h.cells hr _ hi, ← hcfg.debounce, ← hcfg.rdelay, ← hcfg.rtime, ← h.pins, ← h.rowActive]
  exact agree_writeCell _ (agree_logEvent _ h) hr hkb hi (hkb.released_next hi hst)

theorem visitCell_agree (h : x.1.Agree x'.1) (hcount : x.2 = x'.2) (hr : x.1.ready = true)
    (hkb : KeyboardLegal x.1.cfg x.1.cells x.1.queue) (hi : (flatIndex x.1.cfg r c).toNat < x.1.ncells)
    (hv : visitCell now r x c = .ok y) (hv' : visitCell now r x' c = .ok y') : y.1.Agree y'.1 ∧ y.2 = y'.2 := by
  obtain ⟨st, hst, rfl⟩ := visitCell_ok hv
  obtain ⟨st', hst', rfl⟩ := visitCell_ok hv'
  rw [← flatIndex_agree (h.cfg hr), ← h.cells hr _ hi, hst] at hst'
  cases hst'
  have hvisited := visited_agree (now := now) h hr hkb hi hst
  generalize visited now r c st x.1 = w at hvisited ⊢
  generalize visited now r c st x'.1 = w' at hvisited ⊢
  exact ⟨hvisited.1, by rw [hvisited.2, hcount]⟩

theorem sweepAgree_visitCell (hrows : r < x.1.cfg.rows.toNat) (hcols : c < x.1.cfg.cols.toNat)
    (h : SweepAgree s x x') (hv : visitCell now r x c = .ok y) (hv' : visitCell now r x' c = .ok y') :
    SweepAgree s y y' := by
  have hkept := settingsKept_visitCell hv
  obtain ⟨hidx, hlt, _⟩ := flatIndex_toNat x.1.cfg h.keyboard.config.rows_le h.keyboard.config.cols_le hrows hcols
  obtain ⟨hagree, hcount⟩ := visitCell_agree h.agree h.count h.ready h.keyboard (hidx ▸ hlt) hv hv'
  exact ⟨hkept.cfg.trans h.cfg, hkept.ready.trans h.ready, h.keyboard.visitCell hrows hcols hv, hagree, hcount⟩

theorem sweepAgree_visitRow (hrows : r < s.cfg.rows.toNat) (h : SweepAgree s x x') (hv : visitRow now x r = .ok y)
    (hv' : visitRow now x' r = .ok y') : SweepAgree s y y' := by
  obtain ⟨w, hw, rfl⟩ := visitRow_ok hv
  obtain ⟨w', hw', rfl⟩ := visitRow_ok hv'
  rw [← (h.agree.cfg h.ready).cols] at hw'
  refine sweepAgree_driveRow false (foldlM_related (R := SweepAgree s) (fun u u' c y y' hc hu hv hv' => ?_)
    (sweepAgree_driveRow true h) hw hw')
  refine sweepAgree_visitCell ?_ ?_ hu hv hv'
  · rwa [hu.cfg]
  · rw [hu.cfg, ← h.cfg]
    exact List.mem_range.mp hc

theorem sweep_agree (h : s.Agree t) (hr : s.ready = true) (hkb : KeyboardLegal s.cfg s.cells s.queue)
    (hs : sweep now s = .ok y) (ht : sweep now t = .ok y') : y.1.Agree y'.1 ∧ y.2 = y'.2 := by
  rw [sweep] at hs
  rw [sweep, ← (h.cfg hr).rows] at ht
  have hstart : SweepAgree s (s, 0) (t, 0) := ⟨rfl, hr, hkb, h, rfl⟩
  have hend := foldlM_related (fun _ _ _ _ _ hrow => sweepAgree_visitRow (List.mem_range.mp hrow)) hstart hs ht
  exact ⟨hend.agree, hend.count⟩

end SweepsAgree

/-! ### The commands -/

section CommandsAgree

variable {z : Sizes} {s t u v : Block z}

/-- The `READY` test answers alike, so that two agreeing blocks both refuse or both act. -/
theorem whenReady_agree {o p : Host.Outcome (Block z) Fault Refusal} (h : s.Agree t)
    (hact : s.ready = true → o = .next u → p = .next v → u.Agree v) (hs : whenReady s o = .next u)
    (ht : whenReady t p = .next v) : u.Agree v := by
  cases hr : s.ready with
  | false =>
    rw [whenReady_of_not_ready hr] at hs
    rw [whenReady_of_not_ready (h.ready ▸ hr)] at ht
    cases hs
    cases ht
    exact agree_respond _ h
  | true =>
    rw [whenReady_of_ready hr] at hs
    rw [whenReady_of_ready (h.ready ▸ hr)] at ht
    exact hact hr hs ht

theorem scanAt_agree {now : Tick z} (hinv : s.Inv) (h : s.Agree t) (hr : s.ready = true) (hs : scanAt now s = .next u)
    (ht : scanAt now t = .next v) : u.Agree v := by
  obtain ⟨_, _, s', cnt, hsweep, rfl⟩ := scanAt_next hs
  obtain ⟨_, _, t', cnt', hsweep', rfl⟩ := scanAt_next ht
  obtain ⟨hagree, hcnt⟩ := sweep_agree h hr (inv_keyboard hinv hr) hsweep hsweep'
  cases hcnt
  exact agree_respond _ hagree

/-- Commands that take an action agree when they use the same legal action alike. -/
theorem takeAction_agree {use : ActWord z → Block z → Host.Outcome (Block z) Fault Refusal} (hinv : s.Inv)
    (h : s.Agree t) (hr : s.ready = true)
    (huse : ∀ a q p, ActionLegal s.cfg a → Block.Agree { s with queue := q } { t with queue := p } →
      use a { s with queue := q } = .next u → use a { t with queue := p } = .next v → u.Agree v)
    (hs : takeAction use s = .next u) (ht : takeAction use t = .next v) : u.Agree v := by
  have hkb := inv_keyboard hinv hr
  rcases (agree_queue h hr).get hkb.config.qcap_le hkb.queue_range with ⟨hq, hp⟩ | ⟨a, q, p, hq, hp, hagree⟩ <;>
    rw [← agree_qcap h hr] at hp
  · rw [takeAction_of_none hq] at hs
    rw [takeAction_of_none hp] at ht
    cases hs
    cases ht
    exact agree_respond _ h
  · rw [takeAction_of_some hq] at hs
    rw [takeAction_of_some hp] at ht
    exact huse a q p (hkb.get hq).1 (agree_setQueue h hr hagree) hs ht

theorem isShift_agree {g h : ConfigRegs z} (hg : g.Agree h) {i : KeyIndex z} (hi : i.toNat < g.ncells) :
    isShift g i = isShift h i := by
  unfold isShift ConfigRegs.policyName
  rw [hg.policy, hg.shiftPresent, hg.shiftChar, hg.umap i hi]

theorem keyChar_agree {g h : ConfigRegs z} (hg : g.Agree h) (latch : Bool) {i : KeyIndex z} (hi : i.toNat < g.ncells) :
    keyChar g latch i = keyChar h latch i := by
  unfold keyChar ConfigRegs.policyName
  rw [hg.policy, hg.umap i hi, hg.smap i hi]

/-- What the resolution of `a` writes to the latch, if anything, and its character, if any, as a function of all that
it reads: the policy, the latch, the shift-key test and the selected character (43_shift.md R164). -/
def resolution (a : ActWord z) (p : Policy) (latch shift : Bool) (key : KeyChar) : Option Bool × Option KeyChar :=
  if actKind? a = some .release then (if p = .hold ∧ shift = true then some false else none, none)
  else if shift = true then (shiftPressLatch p latch, none)
  else (if p = .oneShot then some false else none, some key)

theorem resolve_eq_resolution {a : ActWord z} {ch : Option KeyChar} (h : resolve a s = .ok (u, ch)) :
    ∃ w, resolution a s.policy s.latch (isShift s.cfg (actIndex a)) (keyChar s.cfg s.latch (actIndex a)) = (w, ch) ∧
      u = w.elim s (setLatch · s) := by
  have hpress (hk : actKind? a = some .press ∨ actKind? a = some .repeated) : actKind? a ≠ some .release := by
    rcases hk with hk | hk <;> simp [hk]
  rcases resolve_cases a s with ⟨_, hr⟩ | ⟨hk, hp, hi, hr⟩ | ⟨hk, hn, hr⟩ | ⟨hk, hi, b, hb, hr⟩ | ⟨hk, hi, hr⟩ <;>
    cases hr.symm.trans h
  · exact ⟨some false, by rw [resolution, if_pos hk, if_pos ⟨hp, hi⟩], rfl⟩
  · exact ⟨none, by rw [resolution, if_pos hk, if_neg hn], rfl⟩
  · exact ⟨some b, by rw [resolution, if_neg (hpress hk), if_pos hi, hb], rfl⟩
  · refine ⟨if s.policy = .oneShot then some false else none, ?_, by split <;> rfl⟩
    rw [resolution, if_neg (hpress hk), hi, if_neg Bool.false_ne_true]

theorem resolve_agree {a : ActWord z} {ch ch' : Option KeyChar} (h : s.Agree t) (hr : s.ready = true)
    (ha : (actIndex a).toNat < s.ncells) (hs : resolve a s = .ok (u, ch)) (ht : resolve a t = .ok (v, ch')) :
    u.Agree v ∧ ch = ch' := by
  have hcfg := h.cfg hr
  have hpolicy : s.policy = t.policy := congrArg Policy.ofCode hcfg.policy
  obtain ⟨w, hw, rfl⟩ := resolve_eq_resolution hs
  obtain ⟨w', hw', rfl⟩ := resolve_eq_resolution ht
  rw [← hpolicy, ← h.latch, ← isShift_agree hcfg ha, ← keyChar_agree hcfg s.latch ha, hw] at hw'
  cases hw'
  refine ⟨?_, rfl⟩
  cases w with
  | none => exact h
  | some b => exact agree_setLatch b h

theorem nextKey_use_agree {a : ActWord z} (h : s.Agree t) (hr : s.ready = true) (ha : (actIndex a).toNat < s.ncells)
    (hs : keyOutcome (resolve a s) = .next u) (ht : keyOutcome (resolve a t) = .next v) : u.Agree v := by
  obtain ⟨s', ch, hres, rfl⟩ := keyOutcome_next hs
  obtain ⟨t', ch', hres', rfl⟩ := keyOutcome_next ht
  obtain ⟨hagree, rfl⟩ := resolve_agree h hr ha hres hres'
  exact agree_respond _ hagree

theorem rejectConfig_agree (e : CfgError) (h : s.Agree t) : (rejectConfig e s).Agree (rejectConfig e t) :=
  agree_of_not_ready rfl rfl rfl rfl h.rowActive rfl h.rsp h.pins h.pending h.trace

/-- A successful `CONFIGURE` writes everything that a configured block can show (44_configure.md R190, R192). -/
theorem acceptConfig_agree {c : CfgInputs z} (hc : checkConfig c = none) (h : s.Agree t) :
    (acceptConfig c s).Agree (acceptConfig c t) where
  ready := rfl
  cfgErr := rfl
  latch := rfl
  rowActive := h.rowActive
  shiftInd := rfl
  rsp := h.rsp
  pins := h.pins
  pending := h.pending
  trace := h.trace
  cfg _ := ⟨rfl, rfl, rfl, rfl, rfl, rfl, rfl, rfl, rfl, rfl, rfl, fun _ _ => rfl, fun _ _ => rfl⟩
  cells _ i hi := by
    have hn : (loadConfig c).ncells ≤ z.maxCells := ncells_le_maxCells (loadConfig_legal hc)
    exact (cellAt_initCells s.cells hi hn).trans (cellAt_initCells t.cells hi hn).symm
  qin _ := rfl
  qout _ := rfl
  live _ := (QueueAgree.clear (loadConfig c).qcap.toNat s.queue t.queue).live

theorem configure_agree (h : s.Agree t) (hs : execConfigure ⟨z, s⟩ = .next ⟨z, u⟩)
    (ht : execConfigure ⟨z, t⟩ = .next ⟨z, v⟩) : u.Agree v := by
  rcases execConfigure_cases s with ⟨e, hcheck, hes⟩ | ⟨hcheck, hes⟩ <;> cases hes.symm.trans hs <;>
    rcases execConfigure_cases t with ⟨e', hcheck', het⟩ | ⟨hcheck', het⟩ <;> cases het.symm.trans ht <;>
    rw [← h.pins, hcheck] at hcheck' <;> cases hcheck'
  · exact agree_respond _ (rejectConfig_agree e h)
  · rw [← h.pins]
    exact agree_respond _ (acceptConfig_agree hcheck h)

theorem exec_agree {i : Instr} (hinv : s.Inv) (h : s.Agree t) (hs : exec i ⟨z, s⟩ = .next ⟨z, u⟩)
    (ht : exec i ⟨z, t⟩ = .next ⟨z, v⟩) : u.Agree v := by
  have hscan {now : Tick z} (hi : scanTime s i = some now) (hi' : scanTime t i = some now) : u.Agree v := by
    rw [exec_scan hi, inState_eq_next_iff] at hs
    rw [exec_scan hi', inState_eq_next_iff] at ht
    exact whenReady_agree h (scanAt_agree hinv h) hs ht
  cases i with
  | nop => cases hs; cases ht; exact agree_respond _ h
  | configure => exact configure_agree h hs ht
  | scan now => exact hscan rfl rfl
  | scanTick => exact hscan rfl (by rw [h.pins]; rfl)
  | nextKey =>
    rw [exec_nextKey, inState_eq_next_iff] at hs ht
    refine whenReady_agree h (fun hr => takeAction_agree hinv h hr fun a q p ha hagree => ?_) hs ht
    exact nextKey_use_agree hagree hr ha.2
  | nextAction =>
    rw [exec_nextAction, inState_eq_next_iff] at hs ht
    refine whenReady_agree h (fun hr => takeAction_agree hinv h hr fun a q p _ hagree hu hv => ?_) hs ht
    rw [rawOutcome_next hu, rawOutcome_next hv]
    exact agree_respond _ hagree
  | queueClear =>
    rw [exec_queueClear, inState_eq_next_iff] at hs ht
    refine whenReady_agree h (fun hr hu hv => ?_) hs ht
    cases hu
    cases hv
    exact agree_respond _ (agree_setQueue h hr (QueueAgree.clear _ _ _))

theorem runCommand_agree (hinv : s.Inv) (h : s.Agree t) (hs : runCommand ⟨z, s⟩ = .next ⟨z, u⟩)
    (ht : runCommand ⟨z, t⟩ = .next ⟨z, v⟩) : u.Agree v := by
  rcases runCommand_cases s with ⟨op, hop, hrun⟩ | ⟨i, hi, hrun⟩ <;>
    rcases runCommand_cases t with ⟨op', hop', hrun'⟩ | ⟨i', hi', hrun'⟩ <;> rw [hrun] at hs <;> rw [hrun'] at ht
  · cases hs; cases ht; exact agree_respond _ h
  · rw [← h.pins, hop] at hi'; cases hi'
  · rw [← h.pins, hi] at hop'; cases hop'
  · rw [← h.pins, hi] at hi'; cases hi'; exact exec_agree hinv h hs ht

theorem step_next_of_reset (hrst : s.pins.rstN = false) (h : step ⟨z, s⟩ = .next ⟨z, u⟩) :
    u = advance (powerOnReset (accept s)) := by
  simpa [hrst] using step_next h

theorem step_next_of_idle (hrst : s.pins.rstN = true) (hvalid : s.pins.cmdValid = false)
    (h : step ⟨z, s⟩ = .next ⟨z, u⟩) : u = advance (accept s) := by
  simpa [hrst, hvalid] using step_next h

theorem step_next_of_command (hrst : s.pins.rstN = true) (hvalid : s.pins.cmdValid = true)
    (h : step ⟨z, s⟩ = .next ⟨z, u⟩) : ∃ b, runCommand ⟨z, accept s⟩ = .next ⟨z, b⟩ ∧ u = advance b := by
  simpa [hrst, hvalid] using step_next h

theorem step_agree (hinv : s.Inv) (h : s.Agree t) (hs : step ⟨z, s⟩ = .next ⟨z, u⟩) (ht : step ⟨z, t⟩ = .next ⟨z, v⟩) :
    u.Agree v := by
  cases hrst : s.pins.rstN with
  | false =>
    rw [step_next_of_reset hrst hs, step_next_of_reset (h.pins ▸ hrst) ht]
    exact agree_advance (agree_powerOnReset (agree_accept h))
  | true =>
    cases hvalid : s.pins.cmdValid with
    | false =>
      rw [step_next_of_idle hrst hvalid hs, step_next_of_idle (h.pins ▸ hrst) (h.pins ▸ hvalid) ht]
      exact agree_advance (agree_accept h)
    | true =>
      obtain ⟨s', hs', rfl⟩ := step_next_of_command hrst hvalid hs
      obtain ⟨t', ht', rfl⟩ := step_next_of_command (h.pins ▸ hrst) (h.pins ▸ hvalid) ht
      exact agree_advance (runCommand_agree (inv_accept hinv) (agree_accept h) hs' ht')

end CommandsAgree

/-- Settles O58 by `step_agree`; that the left block is legal is enough. -/
theorem unspecifiedStateIsUnobservable : Obligations.UnspecifiedStateIsUnobservable :=
  fun _ _ _ _ _ hinv _ h hs ht => step_agree hinv h hs ht

end Sys2Proof.Proofs

namespace Sys2Proof.Proofs

open Sys2Proof Sys2Proof.Machine Sys2Proof.Laws

/-! ## Command words (30_encoding.md R71, R77, R78) -/

section CommandWords

variable {z : Sizes} {c : Cmd z} {i : Instr}

/-- The decoder reads a command from its opcode, and from `cmd_now` if it is a scan. -/
theorem decode_of_opcode (hop : c.op = (encode z i).op) (hnow : ∀ n, i = .scan n → n = c.now.toNat) :
    decode c = .ok i := by
  obtain ⟨op, now⟩ := c
  cases i with
  | scan n => cases hop; cases hnow n rfl; rfl
  | nop | configure | scanTick | nextKey | nextAction | queueClear => cases hop; rfl

theorem decode_of_reserved (h : 7 ≤ c.op.toNat) : decode c = .error (.reservedOpcode c.op) := by
  unfold decode
  split
  case h_8 => rfl
  all_goals omega

/-- The opcode map has a command for each opcode below 7. -/
theorem exists_instr_of_opcode (h : c.op.toNat < 7) :
    ∃ i, c.op = (encode z i).op ∧ ∀ n, i = .scan n → n = c.now.toNat := by
  have hop : c.op = BitVec.ofNat 4 c.op.toNat := by simp
  generalize c.op.toNat = k at h hop
  interval_cases k
  · exact ⟨.nop, hop, nofun⟩
  · exact ⟨.configure, hop, nofun⟩
  · exact ⟨.scan c.now.toNat, hop, fun _ hn => (Instr.scan.inj hn).symm⟩
  · exact ⟨.scanTick, hop, nofun⟩
  · exact ⟨.nextKey, hop, nofun⟩
  · exact ⟨.nextAction, hop, nofun⟩
  · exact ⟨.queueClear, hop, nofun⟩

theorem encode_scan_now {n : Nat} (h : n < 2 ^ z.tickW) : (encode z (.scan n)).now.toNat = n := by
  simp [encode, Nat.mod_eq_of_lt h]

/-- The operand of a legal command fits `cmd_now`, so that nothing of it is lost. -/
theorem decode_encode (hwf : i.wf z = true) : decode (encode z i) = .ok i := by
  refine decode_of_opcode rfl ?_
  rintro n rfl
  exact (encode_scan_now (of_decide_eq_true hwf)).symm

theorem cmdOfWord_wordOfCmd (c : Cmd z) : cmdOfWord z (wordOfCmd c) = c := by
  obtain ⟨op, now⟩ := c
  have hop : BitVec.ofNat 4 (now.toNat * 2 ^ 4 + op.toNat) = op := BitVec.eq_of_toNat_eq (by simp; omega)
  have hnow : (now.toNat * 2 ^ 4 + op.toNat) / 2 ^ 4 = now.toNat := by omega
  simp only [cmdOfWord, wordOfCmd, hop, hnow, BitVec.ofNat_toNat, BitVec.setWidth_eq]

/-- Four bits of opcode and `TICK_W` bits of operand make the width of a command word (log 6). -/
theorem wordOfCmd_lt (c : Cmd z) : wordOfCmd c < 2 ^ (z.tickW + 4) := by
  have hnow := c.now.isLt
  have hop := c.op.isLt
  rw [wordOfCmd, Nat.pow_add]
  omega

end CommandWords

/-- Settles O1: a pair is packed without loss (`cmdOfWord_wordOfCmd`) and decodes to its command (`decode_encode`);
36 bits hold every word of the default sizes. -/
theorem commandWordRoundTrip : Obligations.CommandWordRoundTrip := by
  refine ⟨fun z i hwf => ⟨decode_encode hwf, cmdOfWord_wordOfCmd _⟩, fun i hwf => ?_⟩
  have hfits : wordOfCmd (encode Sizes.defaults i) < 2 ^ 36 := wordOfCmd_lt _
  rw [decodeTableWord, Nat.mod_eq_of_lt hfits, cmdOfWord_wordOfCmd, decode_encode hwf]
  rfl

/-- Settles O2, by the opcode map below 7 (`exists_instr_of_opcode`) and from 7 on (`decode_of_reserved`). -/
theorem reservedOpcodesRefusedByDecoder : Obligations.ReservedOpcodesRefusedByDecoder := by
  refine fun z c => ⟨decode_of_reserved, fun h => ?_⟩
  obtain ⟨i, hop, hnow⟩ := exists_instr_of_opcode h
  exact ⟨i, decode_of_opcode hop hnow, hop.symm⟩

/-- Settles O3: the command that an opcode other than 2 selects is no scan, so `decode_of_opcode` reads it whatever
`cmd_now` is. -/
theorem onlyScanReadsCmdNow : Obligations.OnlyScanReadsCmdNow := by
  refine fun z op n m => ⟨?_, fun hne => ?_⟩
  · rintro rfl
    rfl
  · rcases Nat.lt_or_ge op.toNat 7 with hlt | hge
    · obtain ⟨i, hop, -⟩ := exists_instr_of_opcode (c := (⟨op, n⟩ : Cmd z)) hlt
      have hnoScan : ∀ k, i ≠ .scan k := by
        rintro k rfl
        exact hne hop
      rw [decode_of_opcode hop fun k hk => absurd hk (hnoScan k),
        decode_of_opcode (c := ⟨op, m⟩) hop fun k hk => absurd hk (hnoScan k)]
    · rw [decode_of_reserved hge, decode_of_reserved (c := ⟨op, m⟩) hge]

/-- Settles O4, by evaluating the decoder on the nine numbers. -/
theorem sampleWordsDecode : Obligations.SampleWordsDecode := by
  unfold Obligations.SampleWordsDecode
  decide

/-! ## Action words (30_encoding.md R72, R82) -/

section ActionFields

variable {z : Sizes}

theorem toNat_append_eq_add {m n : Nat} (x : BitVec m) (y : BitVec n) :
    (x ++ y).toNat = x.toNat * 2 ^ n + y.toNat := by
  rw [BitVec.toNat_append, ← Nat.shiftLeft_add_eq_or_of_lt y.isLt, Nat.shiftLeft_eq]

theorem packAction_toNat (i : KeyIndex z) (sh : Bool) (k : Kind) :
    (packAction i sh k).toNat = 8 * i.toNat + 4 * sh.toNat + k.code.toNat := by
  have hfields : (packAction i sh k).toNat = (i.toNat * 2 ^ 1 + sh.toNat) * 2 ^ 2 + k.code.toNat := by
    rw [packAction, toNat_append_eq_add, toNat_append_eq_add, BitVec.toNat_ofBool]
  omega

@[simp] theorem actShift_packAction (i : KeyIndex z) (sh : Bool) (k : Kind) : actShift (packAction i sh k) = sh := by
  simp [actShift, packAction, BitVec.getElem_append]

@[simp] theorem actKind?_packAction (i : KeyIndex z) (sh : Bool) (k : Kind) :
    actKind? (packAction i sh k) = some k := by
  rw [actKind?, actKindBits_packAction, kind_ofCode?_code]

theorem actKind?_eq_none_iff (a : ActWord z) : actKind? a = none ↔ actKindBits a = 0b11#2 :=
  kind_ofCode?_eq_none_iff _

theorem actKind?_eq_some_iff (a : ActWord z) (k : Kind) : actKind? a = some k ↔ actKindBits a = k.code :=
  kind_ofCode?_eq_some_iff _ k

/-- The three fields cover the word: bits 1 and 0, bit 2, and the bits from 3 on. -/
theorem append_fields (a : ActWord z) : actIndex a ++ BitVec.ofBool (actShift a) ++ actKindBits a = a := by
  ext j hj
  rcases lt_trichotomy j 2 with hkind | rfl | hindex
  · simp [actKindBits, BitVec.getElem_append, hkind, BitVec.getLsbD_eq_getElem hj]
  · simp [actShift, BitVec.getElem_append]
  · have hpast : ¬ j < 2 := by omega
    have hpast' : ¬ j - 2 < 1 := by omega
    have hplace : 3 + (j - 2 - 1) = j := by omega
    simp [actIndex, BitVec.getElem_append, hpast, hpast', hplace, BitVec.getLsbD_eq_getElem hj]

theorem packAction_fields {a : ActWord z} {k : Kind} (h : actKindBits a = k.code) :
    packAction (actIndex a) (actShift a) k = a := by
  rw [packAction, ← h, append_fields]

end ActionFields

/-- Settles O5, from the word as a sum (`packAction_toNat`) and the rules that read its fields back. -/
theorem actionWordLayout : Obligations.ActionWordLayout := by
  intro z i sh k
  refine ⟨?_, actIndex_packAction i sh k, actShift_packAction i sh k, actKind?_packAction i sh k⟩
  rw [packAction_toNat]
  cases sh <;> cases k <;> rfl

/-- Settles O6: a kind other than `0b11` has a name, and the word is its three fields side by side
(`packAction_fields`). -/
theorem actionWordReadsBack : Obligations.ActionWordReadsBack := by
  refine fun z a => ⟨(actKind?_eq_none_iff a).mpr, fun hkind => ?_⟩
  obtain ⟨k, hk⟩ := Option.ne_none_iff_exists'.mp (mt (actKind?_eq_none_iff a).mp hkind)
  exact ⟨k, hk, packAction_fields ((actKind?_eq_some_iff a k).mp hk)⟩

/-! ## Lines at the ports (30_encoding.md R83) -/

section Lines

variable {z : Sizes} {base p : Pins z} {i : Instr}

theorem fitBits_eq_some_iff {w n : Nat} {b : BitVec w} :
    fitBits w n = some b ↔ n < 2 ^ w ∧ b = BitVec.ofNat w n := by
  simp [fitBits, eq_comm]

/-- Reset is released and the command `i` stands at the port. -/
structure Presents (p : Pins z) (i : Instr) : Prop where
  rstN : p.rstN = true
  cmdValid : p.cmdValid = true
  decodes : decode p.cmd = .ok i

/-- What a command does not read of `cmd_now` may hold anything. -/
theorem presents_present (base : Pins z) (hwf : i.wf z = true) : Presents (present base i) i := by
  refine ⟨rfl, rfl, ?_⟩
  cases i with
  | scan now => exact decode_encode hwf
  | nop | configure | scanTick | nextKey | nextAction | queueClear => exact decode_of_opcode rfl nofun

/-- A scan line adds its tick and its readings to the presented command. -/
theorem presents_presentScan {tick : Option (Tick z)} {rs : List (Nat × List Bool)} (hwf : i.wf z = true)
    (h : presentScan base i tick rs = some p) : Presents p i ∧ p.tickIn = tick.getD base.tickIn := by
  obtain ⟨v, -, rfl⟩ := Option.map_eq_some_iff.mp h
  obtain ⟨hrst, hvalid, hdecode⟩ := presents_present base hwf
  exact ⟨⟨hrst, hvalid, hdecode⟩, rfl⟩

/-- The command that a line names. -/
def lineInstr : Line → Instr
  | .nop => .nop
  | .configure _ => .configure
  | .scan now _ => .scan now
  | .scanTick _ _ => .scanTick
  | .nextKey => .nextKey
  | .nextAction => .nextAction
  | .queueClear => .queueClear

theorem assemble_scan {now : Nat} {rs : List (Nat × List Bool)} (h : assemble base (.scan now rs) = some p) :
    now < 2 ^ z.tickW ∧ Presents p (.scan now) := by
  obtain ⟨b, hb, hp⟩ := Option.bind_eq_some_iff.mp h
  obtain ⟨hfits, -⟩ := fitBits_eq_some_iff.mp hb
  have hwf : (Instr.scan now).wf z = true := decide_eq_true hfits
  exact ⟨hfits, (presents_presentScan hwf hp).1⟩

theorem assemble_scanTick {v : Nat} {rs : List (Nat × List Bool)}
    (h : assemble base (.scanTick (some v) rs) = some p) :
    Presents p .scanTick ∧ v < 2 ^ z.tickW ∧ p.tickIn = BitVec.ofNat z.tickW v := by
  obtain ⟨t, ht, hp⟩ := Option.bind_eq_some_iff.mp h
  obtain ⟨hfits, rfl⟩ := fitBits_eq_some_iff.mp ht
  obtain ⟨hpresents, htick⟩ := presents_presentScan rfl hp
  exact ⟨hpresents, hfits, htick⟩

theorem presents_assemble {l : Line} (h : assemble base l = some p) : Presents p (lineInstr l) := by
  cases l with
  | nop | nextKey | nextAction | queueClear => cases h; exact presents_present base rfl
  | configure c =>
    obtain ⟨g, -, rfl⟩ := Option.map_eq_some_iff.mp h
    obtain ⟨hrst, hvalid, hdecode⟩ := presents_present base (i := .configure) rfl
    exact ⟨hrst, hvalid, hdecode⟩
  | scan now rs => exact (assemble_scan h).2
  | scanTick tick rs =>
    cases tick with
    | none => exact (presents_presentScan rfl h).1
    | some v => exact (assemble_scanTick h).1

end Lines

/-- Settles O7: every line presents its command (`presents_assemble`); what is left are the numbers of a scan line
(`assemble_scan`, `assemble_scanTick`). -/
theorem assembledLinesDecode : Obligations.AssembledLinesDecode := by
  intro z base p l h
  obtain ⟨hrst, hvalid, hdecode⟩ := presents_assemble h
  refine ⟨hrst, hvalid, ?_⟩
  cases l with
  | nop | configure | nextKey | nextAction | queueClear => exact hdecode
  | scan now rs => exact ⟨(assemble_scan h).1, hdecode⟩
  | scanTick tick rs =>
    cases tick with
    | none => exact ⟨hdecode, (presents_presentScan rfl h).2⟩
    | some v => exact ⟨hdecode, (assemble_scanTick h).2⟩

/-! ## Refusals (30_encoding.md R78, R79) -/

section Refusals

variable {z : Sizes} {s : Block z} {i : Instr}

theorem runCommand_of_reserved (h : 7 ≤ s.pins.cmd.op.toNat) :
    runCommand ⟨z, s⟩ = .next ⟨z, respondIllegalOp s⟩ := by
  rcases runCommand_cases s with ⟨_, _, hrun⟩ | ⟨i, hi, _⟩
  · exact hrun
  · cases hi.symm.trans (decode_of_reserved h)

/-- Every command but `NOP` and `CONFIGURE` stands behind the `READY` test (60_exceptions.md R214). -/
theorem exec_gated (s : Block z) (hnop : i ≠ .nop) (hconf : i ≠ .configure) :
    ∃ act, exec i ⟨z, s⟩ = inState (whenReady s act) := by
  cases i with
  | nop => exact absurd rfl hnop
  | configure => exact absurd rfl hconf
  | scan now => exact ⟨_, exec_scan rfl⟩
  | scanTick => exact ⟨_, exec_scan rfl⟩
  | nextKey => exact ⟨_, exec_nextKey s⟩
  | nextAction => exact ⟨_, exec_nextAction s⟩
  | queueClear => exact ⟨_, exec_queueClear s⟩

end Refusals

/-- Settles O9: the dispatch answers a reserved opcode before any command runs (`runCommand_of_reserved`). -/
theorem stepAnswersReservedOpcode : Obligations.StepAnswersReservedOpcode := by
  intro z s hrst hvalid hop
  have hport : 7 ≤ (accept s).pins.cmd.op.toNat := hop
  rw [step_of_command hrst hvalid, runCommand_of_reserved hport]
  rfl

/-- Settles O13: the five commands stand behind the `READY` test (`exec_gated`), which refuses. -/
theorem notReadyRefusesCommands : Obligations.NotReadyRefusesCommands := by
  intro z s i hready hnop hconf
  obtain ⟨act, hact⟩ := exec_gated s hnop hconf
  rw [hact, whenReady_of_not_ready hready]
  rfl

/-! ## When `NEXT_KEY` and `NEXT_ACTION` stop (30_encoding.md R82) -/

section DequeueStops

variable {z : Sizes} {s : Block z} {a : ActWord z}

/-- A machine stops exactly when its block answers no next state. -/
theorem inState_stops_iff {o : Host.Outcome (Block z) Fault Refusal} :
    (∀ t, inState o ≠ .next t) ↔ ¬∃ t, o = .next t := by
  constructor
  · rintro h ⟨t, rfl⟩
    exact h _ rfl
  · rintro h t ht
    obtain ⟨b, hb, _⟩ := inState_eq_next ht
    exact h ⟨b, hb⟩

theorem rawOutcome_completes_iff : (∃ t, rawOutcome a s = .next t) ↔ actKindBits a ≠ 0b11#2 := by
  rcases rawOutcome_cases a s with ⟨hkind, hraw⟩ | ⟨hkind, hraw⟩ <;> simp [hraw, hkind]

/-- Resolution has a result for each of the three kinds, under every policy (43_shift.md R164). -/
theorem resolve_completes_iff : (∃ x, resolve a s = .ok x) ↔ actKindBits a ≠ 0b11#2 := by
  rw [ne_eq, ← actKind?_eq_none_iff]
  rcases resolve_cases a s with ⟨hk, hr⟩ | ⟨hk, _, _, hr⟩ | ⟨hk, _, hr⟩ | ⟨hk | hk, _, _, _, hr⟩ | ⟨hk | hk, _, hr⟩ <;>
    simp [hr, hk]

theorem keyOutcome_completes_iff {e : Except Fault (Block z × Option KeyChar)} :
    (∃ t, keyOutcome e = .next t) ↔ ∃ x, e = .ok x := by
  rcases e with _ | ⟨u, _ | ch⟩ <;> simp [keyOutcome]

/-- A command that takes an action completes on an empty queue, and else exactly when it can use the action at
`QOUT`. -/
theorem takeAction_completes_iff {use : ActWord z → Block z → Host.Outcome (Block z) Fault Refusal}
    (huse : ∀ a u, (∃ t, use a u = .next t) ↔ actKindBits a ≠ 0b11#2) :
    (∃ t, takeAction use s = .next t) ↔
      s.queue.qin = s.queue.qout ∨ actKindBits (slotAt s.queue.buf s.queue.qout) ≠ 0b11#2 := by
  by_cases hempty : s.queue.qin = s.queue.qout
  · rw [takeAction_of_none ((qGet_eq_none_iff _ _).mpr hempty)]
    simp [hempty]
  · rw [takeAction_of_some (qGet_of_ne hempty), huse]
    simp [hempty]

/-- Behind the `READY` test, what stops a command that takes an action is an action it cannot use. -/
theorem gated_takeAction_stops_iff {use : ActWord z → Block z → Host.Outcome (Block z) Fault Refusal}
    (huse : ∀ a u, (∃ t, use a u = .next t) ↔ actKindBits a ≠ 0b11#2) :
    (∀ t, inState (whenReady s (takeAction use s)) ≠ .next t) ↔
      s.ready = true ∧ s.queue.qin ≠ s.queue.qout ∧ actKindBits (slotAt s.queue.buf s.queue.qout) = 0b11#2 := by
  rw [inState_stops_iff]
  cases hready : s.ready with
  | false => simp [whenReady_of_not_ready hready]
  | true =>
    rw [whenReady_of_ready hready, takeAction_completes_iff huse]
    simp

end DequeueStops

/-- Settles O46: the two commands differ only in the use of the action they take (`gated_takeAction_stops_iff`), and
neither use stops on any other kind. -/
theorem dequeueStopsOnlyOnReservedKind : Obligations.DequeueStopsOnlyOnReservedKind := by
  rintro z s i (rfl | rfl)
  · rw [exec_nextKey]
    exact gated_takeAction_stops_iff fun _ _ => keyOutcome_completes_iff.trans resolve_completes_iff
  · rw [exec_nextAction]
    exact gated_takeAction_stops_iff fun _ _ => rawOutcome_completes_iff

/-! ## Which command reads which input (30_encoding.md R75, R80) -/

section Inputs

variable {z : Sizes} {p : Pins z} {s : Block z}

/-- The block with other values at its input ports. -/
def withPins (p : Pins z) (s : Block z) : Block z := { s with pins := p }

@[simp] theorem withPins_cfg (p : Pins z) (s : Block z) : (withPins p s).cfg = s.cfg := rfl
@[simp] theorem withPins_cells (p : Pins z) (s : Block z) : (withPins p s).cells = s.cells := rfl
@[simp] theorem withPins_rowActive (p : Pins z) (s : Block z) : (withPins p s).rowActive = s.rowActive := rfl
@[simp] theorem withPins_pins (p : Pins z) (s : Block z) : (withPins p s).pins = p := rfl

theorem logEvent_withPins (e : Event z) (s : Block z) : logEvent e (withPins p s) = withPins p (logEvent e s) := rfl

/-- The same in a pair with what an operation answers beside the block. -/
def withPinsFst {α : Type} (p : Pins z) (x : Block z × α) : Block z × α := (withPins p x.1, x.2)

section Pair
variable {α : Type} (p : Pins z) (x : Block z × α)
@[simp] theorem withPinsFst_fst : (withPinsFst p x).1 = withPins p x.1 := rfl
@[simp] theorem withPinsFst_snd : (withPinsFst p x).2 = x.2 := rfl
end Pair

theorem whenReady_withPins {o o' : Host.Outcome (Block z) Fault Refusal} (h : o' = mapNext (withPins p) o) :
    whenReady (withPins p s) o' = mapNext (withPins p) (whenReady s o) := by
  cases hready : s.ready with
  | false => rw [whenReady_of_not_ready hready, whenReady_of_not_ready (s := withPins p s) hready]; rfl
  | true => rw [whenReady_of_ready hready, whenReady_of_ready (s := withPins p s) hready, h]

/-! ### The commands that take an action -/

theorem takeAction_withPins {use : ActWord z → Block z → Host.Outcome (Block z) Fault Refusal}
    (huse : ∀ a u, use a (withPins p u) = mapNext (withPins p) (use a u)) :
    takeAction use (withPins p s) = mapNext (withPins p) (takeAction use s) := by
  cases hget : qGet s.qcap s.queue with
  | none => rw [takeAction_of_none hget, takeAction_of_none (s := withPins p s) hget]; rfl
  | some x => rw [takeAction_of_some hget, takeAction_of_some (s := withPins p s) hget, ← huse]; rfl

theorem rawOutcome_withPins (a : ActWord z) (s : Block z) :
    rawOutcome a (withPins p s) = mapNext (withPins p) (rawOutcome a s) := by
  unfold rawOutcome
  split <;> rfl

theorem resolve_withPins (a : ActWord z) (s : Block z) :
    resolve a (withPins p s) = (resolve a s).map (withPinsFst p) := by
  have hpolicy : (withPins p s).policy = s.policy := rfl
  have hcfg : (withPins p s).cfg = s.cfg := rfl
  have hlatch : (withPins p s).latch = s.latch := rfl
  simp only [resolve, hpolicy, hcfg, hlatch]
  split
  · rfl
  · split <;> rfl
  · split
    · split <;> rfl
    · split <;> rfl

theorem keyOutcome_withPins (e : Except Fault (Block z × Option KeyChar)) :
    keyOutcome (e.map (withPinsFst p)) = mapNext (withPins p) (keyOutcome e) := by
  rcases e with _ | ⟨u, _ | ch⟩ <;> rfl

/-! ### Scans -/

/-- A loop every turn of which keeps `P` and, from `P`, commutes with a map, commutes with that map. -/
theorem foldlM_map {α β ε : Type} {f : β → α → Except ε β} {g : β → β} {P : β → Prop}
    (hkeep : ∀ x a y, P x → f x a = .ok y → P y) (hturn : ∀ x a, P x → f (g x) a = (f x a).map g) (l : List α)
    {x : β} (hx : P x) : l.foldlM f (g x) = (l.foldlM f x).map g := by
  induction l generalizing x with
  | nil => rfl
  | cons a l ih =>
    rw [List.foldlM_cons, List.foldlM_cons, hturn x a hx]
    cases ha : f x a with
    | error e => rfl
    | ok y => exact ih (hkeep x a y hx ha)

theorem writeCell_withPins (i : KeyIndex z) (out : CellState × Tick z × Option Kind) (s : Block z) :
    writeCell i out (withPins p s) = withPinsFst p (writeCell i out s) := by
  unfold writeCell
  split <;> rfl

theorem cellStep_withPins (i : KeyIndex z) (held : Bool) (now : Tick z) (s : Block z) :
    cellStep i held now (withPins p s) = (cellStep i held now s).map (withPinsFst p) := by
  simp only [cellStep, withPins_cells, withPins_cfg, writeCell_withPins]
  split <;> rfl

variable {now : Tick z} {r c : Nat} {x y : Block z × FullCount z}

/-- At the ports of a scan under way stand the readings of `p`. -/
def ReadingsAt (p : Pins z) (x : Block z × FullCount z) : Prop := p.colPressed = x.1.pins.colPressed

theorem readingsAt_visitCell (hx : ReadingsAt p x) (hv : visitCell now r x c = .ok y) : ReadingsAt p y :=
  hx.trans (congrArg Pins.colPressed (settingsKept_visitCell hv).pins.symm)

theorem readingsAt_visitRow (hx : ReadingsAt p x) (hv : visitRow now x r = .ok y) : ReadingsAt p y := by
  obtain ⟨w, hcols, rfl⟩ := visitRow_ok hv
  have hrise : ReadingsAt p (driveRow r true x.1, x.2) := hx
  have hw : ReadingsAt p w := foldlM_keeps (fun _ _ _ _ => readingsAt_visitCell) hrise hcols
  exact hw

/-- Of the ports a visit reads the reading of its own row and column (41_scan.md R130). -/
theorem visitCell_withPins (hx : ReadingsAt p x) :
    visitCell now r (withPinsFst p x) c = (visitCell now r x c).map (withPinsFst p) := by
  have hreading : reading p r c = reading x.1.pins r c := by rw [reading, reading, hx]
  simp only [visitCell, withPinsFst_fst, withPins_pins, withPins_cfg, withPins_rowActive, hreading, logEvent_withPins,
    cellStep_withPins]
  cases cellStep (flatIndex x.1.cfg r c) (reading x.1.pins r c) now
    (logEvent (.sample x.1.rowActive r c (reading x.1.pins r c)) x.1) <;> rfl

theorem visitRow_withPins (hx : ReadingsAt p x) :
    visitRow now (withPinsFst p x) r = (visitRow now x r).map (withPinsFst p) := by
  have hcols : (List.range x.1.cfg.cols.toNat).foldlM (visitCell now r) (driveRow r true (withPins p x.1), x.2) =
      ((List.range x.1.cfg.cols.toNat).foldlM (visitCell now r) (driveRow r true x.1, x.2)).map (withPinsFst p) :=
    foldlM_map (f := visitCell now r) (P := ReadingsAt p) (fun _ _ _ => readingsAt_visitCell)
      (fun _ _ => visitCell_withPins) _ (x := (driveRow r true x.1, x.2)) hx
  simp only [visitRow, withPinsFst_fst, withPinsFst_snd, withPins_cfg, hcols]
  cases (List.range x.1.cfg.cols.toNat).foldlM (visitCell now r) (driveRow r true x.1, x.2) <;> rfl

theorem sweep_withPins (hread : p.colPressed = s.pins.colPressed) :
    sweep now (withPins p s) = (sweep now s).map (withPinsFst p) :=
  foldlM_map (f := visitRow now) (P := ReadingsAt p) (fun _ _ _ => readingsAt_visitRow)
    (fun _ _ => visitRow_withPins) _ (x := (s, 0)) hread

theorem scanAt_withPins (hread : p.colPressed = s.pins.colPressed) :
    scanAt now (withPins p s) = mapNext (withPins p) (scanAt now s) := by
  simp only [scanAt, withPins_cfg, sweep_withPins hread]
  split
  · rfl
  · cases sweep now s <;> rfl

/-- Both scans: the same timestamp and the same readings are all they take from the ports. -/
theorem exec_scan_withPins {i : Instr} (hnow : scanTime s i = some now) (hnow' : scanTime (withPins p s) i = some now)
    (hread : p.colPressed = s.pins.colPressed) :
    exec i ⟨z, s⟩ = inState (whenReady s (scanAt now s)) ∧
      exec i ⟨z, withPins p s⟩ = inState (mapNext (withPins p) (whenReady s (scanAt now s))) := by
  rw [exec_scan hnow, exec_scan hnow', whenReady_withPins (scanAt_withPins hread)]
  exact ⟨rfl, rfl⟩

/-! ### Configuration -/

/-- What `CONFIGURE` does to a block whose configuration inputs are `c` (44_configure.md R190). -/
def configureWith (c : CfgInputs z) (s : Block z) : Block z :=
  match checkConfig c with
  | some e => respond (.cfgRejected e) (rejectConfig e s)
  | none => respond (.ofStatus .ok) (acceptConfig c s)

theorem exec_configure (s : Block z) : exec .configure ⟨z, s⟩ = inState (.next (configureWith s.pins.cfg s)) := by
  unfold configureWith
  rcases execConfigure_cases s with ⟨e, hcheck, hexec⟩ | ⟨hcheck, hexec⟩ <;> rw [hcheck] <;> exact hexec

theorem configureWith_withPins (c : CfgInputs z) (s : Block z) :
    configureWith c (withPins p s) = withPins p (configureWith c s) := by
  unfold configureWith
  split <;> rfl

end Inputs

/-- Settles O52: what each command does commutes with a change of the ports (the `…_withPins` lemmas). A scan needs
its timestamp and its readings kept, `CONFIGURE` its inputs. -/
theorem inputsReadOnlyByTheirCommands : Obligations.InputsReadOnlyByTheirCommands := by
  intro z i s p hcfg htick hread
  change ∃ o, exec i ⟨z, s⟩ = inState o ∧ exec i ⟨z, withPins p s⟩ = inState (mapNext (withPins p) o)
  cases i with
  | nop => exact ⟨.next (respond (.ofStatus .ok) s), rfl, rfl⟩
  | configure =>
    refine ⟨_, exec_configure s, ?_⟩
    rw [exec_configure, configureWith_withPins, withPins_pins, hcfg rfl]
    rfl
  | scan now => exact ⟨_, exec_scan_withPins rfl rfl (hread (.inr ⟨now, rfl⟩))⟩
  | scanTick => exact ⟨_, exec_scan_withPins rfl (congrArg some (htick rfl)) (hread (.inl rfl))⟩
  | nextKey =>
    refine ⟨_, exec_nextKey s, ?_⟩
    rw [exec_nextKey, whenReady_withPins (takeAction_withPins fun a u => ?_)]
    rw [resolve_withPins, keyOutcome_withPins]
  | nextAction =>
    refine ⟨_, exec_nextAction s, ?_⟩
    rw [exec_nextAction, whenReady_withPins (takeAction_withPins rawOutcome_withPins)]
  | queueClear =>
    refine ⟨_, exec_queueClear s, ?_⟩
    rw [exec_queueClear]
    exact congrArg inState (whenReady_withPins rfl)

end Sys2Proof.Proofs

namespace Sys2Proof.Proofs

open Sys2Proof Sys2Proof.Machine Sys2Proof.Laws

/-! ## One transition of a cell (40_cell_fsm.md R97 to R107) -/

section CellTransitions

variable {w : Nat} {d p rt t now : BitVec w} {st : CellState} {held : Bool}

/-- The states of a key that is down and debounced: a released reading releases it, a due deadline repeats it. -/
def IsHeld (st : CellState) : Prop := st = .pressed ∨ st = .repeating

theorem cellNext_released_up : cellNext d p rt .released t false now = (.released, t, none) := rfl

theorem cellNext_released_press :
    cellNext d p rt .released t true now = (.pressDebounce, now + d, some .press) := rfl

theorem cellNext_pressDebounce : cellNext d p rt .pressDebounce t held now =
    if due now t then (.pressed, t + p, none) else (.pressDebounce, t, none) := rfl

theorem cellNext_releaseDebounce : cellNext d p rt .releaseDebounce t held now =
    if due now t then (.released, 0, none) else (.releaseDebounce, t, none) := rfl

theorem cellNext_held_up (h : IsHeld st) :
    cellNext d p rt st t false now = (.releaseDebounce, t + d, some .release) := by
  rcases h with rfl | rfl <;> rfl

theorem cellNext_held_down (h : IsHeld st) : cellNext d p rt st t true now =
    if due now t then (.repeating, t + rt, some .repeated) else (st, t, none) := by
  rcases h with rfl | rfl <;> rfl

/-- The moves of a cell at time `now`, without what brings each about: from a state and a deadline to the next
state, the next deadline and the action. -/
inductive CellMove (d p rt now : BitVec w) (t : BitVec w) : CellState → CellState × BitVec w × Option Kind → Prop
  | stay (st : CellState) : CellMove d p rt now t st (st, t, none)
  | press : CellMove d p rt now t .released (.pressDebounce, now + d, some .press)
  | settle : CellMove d p rt now t .pressDebounce (.pressed, t + p, none)
  | repeated {st : CellState} (h : IsHeld st) : CellMove d p rt now t st (.repeating, t + rt, some .repeated)
  | release {st : CellState} (h : IsHeld st) : CellMove d p rt now t st (.releaseDebounce, t + d, some .release)
  | free : CellMove d p rt now t .releaseDebounce (.released, 0, none)

theorem cellMove_of_held (h : IsHeld st) : CellMove d p rt now t st (cellNext d p rt st t held now) := by
  cases held with
  | false => rw [cellNext_held_up h]; exact .release h
  | true =>
    rw [cellNext_held_down h]
    split
    · exact .repeated h
    · exact .stay st

/-- Every transition is one of the moves. -/
theorem cellMove_cellNext (d p rt t now : BitVec w) (st : CellState) (held : Bool) :
    CellMove d p rt now t st (cellNext d p rt st t held now) := by
  cases st with
  | released =>
    cases held with
    | false => exact .stay _
    | true => exact .press
  | pressDebounce =>
    rw [cellNext_pressDebounce]
    split
    · exact .settle
    · exact .stay _
  | pressed => exact cellMove_of_held (.inl rfl)
  | repeating => exact cellMove_of_held (.inr rfl)
  | releaseDebounce =>
    rw [cellNext_releaseDebounce]
    split
    · exact .free
    · exact .stay _

end CellTransitions

/-- Settles O20: the first two clauses are the transitions of Released; of all the moves only the press measures its
deadline from `now`. -/
theorem releasedTransitions : Obligations.ReleasedTransitions := by
  intro w d p rt t now
  refine ⟨cellNext_released_up, cellNext_released_press, fun st held hst => ?_⟩
  have hmove := cellMove_cellNext d p rt t now st held
  generalize cellNext d p rt st t held now = out at hmove
  cases hmove with
  | stay | settle | repeated | release | free => simp
  | press => exact absurd rfl hst

/-- Settles O21, the two branches of the timeout `cellNext_pressDebounce`. -/
theorem pressDebounceTransitions : Obligations.PressDebounceTransitions := by
  intro w d p rt t now held
  rw [cellNext_pressDebounce]
  exact ⟨fun hwait => if_neg (Bool.eq_false_iff.mp hwait), fun hdue => if_pos hdue⟩

/-- What R101 to R104 and R107 say of Pressed and Repeating alike. -/
theorem held_transitions {w : Nat} (d p rt t now : BitVec w) {st : CellState} (h : IsHeld st) :
    cellNext d p rt st t false now = (.releaseDebounce, t + d, some .release) ∧
    (due now t = true → cellNext d p rt st t true now = (.repeating, t + rt, some .repeated)) ∧
    (due now t = false → cellNext d p rt st t true now = (st, t, none)) := by
  rw [cellNext_held_down h]
  exact ⟨cellNext_held_up h, fun hdue => if_pos hdue, fun hwait => if_neg (Bool.eq_false_iff.mp hwait)⟩

/-- Settles O22 by `held_transitions`. -/
theorem pressedTransitions : Obligations.PressedTransitions :=
  fun _ d p rt t now => held_transitions d p rt t now (.inl rfl)

/-- Settles O23 by `held_transitions`. -/
theorem repeatingTransitions : Obligations.RepeatingTransitions :=
  fun _ d p rt t now => held_transitions d p rt t now (.inr rfl)

/-- Settles O24, the two branches of the timeout `cellNext_releaseDebounce`. -/
theorem releaseDebounceTransitions : Obligations.ReleaseDebounceTransitions := by
  intro w d p rt t now held
  rw [cellNext_releaseDebounce]
  exact ⟨fun hdue => if_pos hdue, fun hwait => if_neg (Bool.eq_false_iff.mp hwait)⟩

/-- The release window ends at the first scan that finds its deadline due. -/
theorem releaseDebounce_ends_iff {w : Nat} (d p rt t now : BitVec w) (held : Bool) :
    (cellNext d p rt .releaseDebounce t held now).1 = .released ↔ due now t = true := by
  rw [cellNext_releaseDebounce]
  split <;> simp [*]

/-- Settles O27: the release of a held key does not read the time (`cellNext_held_up`), and its window ends by
`releaseDebounce_ends_iff`. -/
theorem releaseWindowCarriesPendingTime : Obligations.ReleaseWindowCarriesPendingTime := by
  intro w d p rt t now n held_at st held hst
  have hup (m : BitVec w) := cellNext_held_up (d := d) (p := p) (rt := rt) (t := t) (now := m) hst
  rw [hup now]
  exact ⟨rfl, add_sub_right_comm t d now, releaseDebounce_ends_iff d p rt (t + d) n held, hup held_at⟩

/-! ## One cell over many scans -/

section CellRuns

/-- The result of a run with the action, if any, of a scan before it. -/
def emitBefore {w : Nat} (k : Option Kind) (run : CellState × BitVec w × List Kind) :
    CellState × BitVec w × List Kind :=
  (run.1, run.2.1, k.toList ++ run.2.2)

variable {w : Nat} {d p rt t now : BitVec w} {st : CellState} {held : Bool} {scans : List (Bool × BitVec w)}
  {k : Option Kind} {run : CellState × BitVec w × List Kind}

@[simp] theorem emitBefore_state : (emitBefore k run).1 = run.1 := rfl
@[simp] theorem emitBefore_deadline : (emitBefore k run).2.1 = run.2.1 := rfl
@[simp] theorem emitBefore_actions : (emitBefore k run).2.2 = k.toList ++ run.2.2 := rfl
theorem emitBefore_none : emitBefore none run = run := rfl

theorem cellRun_nil : cellRun d p rt st t [] = (st, t, []) := rfl

/-- The first scan's transition, and then the run from where it leads. -/
theorem cellRun_cons : cellRun d p rt st t ((held, now) :: scans) =
    emitBefore (cellNext d p rt st t held now).2.2
      (cellRun d p rt (cellNext d p rt st t held now).1 (cellNext d p rt st t held now).2.1 scans) := rfl

end CellRuns

/-! ### Where the counter wraps (40_cell_fsm.md R114) -/

section WrapAround

variable {w : Nat} {off : BitVec w}

/-- `due` reads the difference of its operands alone. -/
theorem due_add_right (now t off : BitVec w) : due (now + off) (t + off) = due now t := by
  rw [Bool.eq_iff_iff, due_iff_toInt_nonneg, due_iff_toInt_nonneg, add_sub_add_right_eq_sub]

/-- Two results of one cell (state, deadline, actions) that an offset of the clock tells apart at most: the deadline
of a cell that is not Released is shifted by it. -/
structure ClockShifted {α : Type} (off : BitVec w) (a b : CellState × BitVec w × α) : Prop where
  state : b.1 = a.1
  actions : b.2.2 = a.2.2
  deadline : a.1 ≠ .released → b.2.1 = a.2.1 + off

theorem clockShifted_cellNext_of_held {t : BitVec w} {st : CellState} (d p rt now : BitVec w) (held : Bool)
    (hst : IsHeld st) :
    ClockShifted off (cellNext d p rt st t held now) (cellNext d p rt st (t + off) held (now + off)) := by
  cases held with
  | false =>
    rw [cellNext_held_up hst, cellNext_held_up hst]
    exact ⟨rfl, rfl, fun _ => add_right_comm t off d⟩
  | true =>
    rw [cellNext_held_down hst, cellNext_held_down hst, due_add_right]
    split
    · exact ⟨rfl, rfl, fun _ => add_right_comm t off rt⟩
    · exact ⟨rfl, rfl, fun _ => rfl⟩

/-- A transition commutes with an offset of the clock; Released, which does not read its deadline, needs none of it. -/
theorem clockShifted_cellNext {t u : BitVec w} {st : CellState} (d p rt now : BitVec w) (held : Bool)
    (hu : st ≠ .released → u = t + off) :
    ClockShifted off (cellNext d p rt st t held now) (cellNext d p rt st u held (now + off)) := by
  cases st with
  | released =>
    cases held with
    | false => exact ⟨rfl, rfl, fun hne => absurd rfl hne⟩
    | true => exact ⟨rfl, rfl, fun _ => add_right_comm now off d⟩
  | pressDebounce =>
    rw [cellNext_pressDebounce, cellNext_pressDebounce, hu nofun, due_add_right]
    split
    · exact ⟨rfl, rfl, fun _ => add_right_comm t off p⟩
    · exact ⟨rfl, rfl, fun _ => rfl⟩
  | pressed => rw [hu nofun]; exact clockShifted_cellNext_of_held d p rt now held (.inl rfl)
  | repeating => rw [hu nofun]; exact clockShifted_cellNext_of_held d p rt now held (.inr rfl)
  | releaseDebounce =>
    rw [cellNext_releaseDebounce, cellNext_releaseDebounce, hu nofun, due_add_right]
    split
    · exact ⟨rfl, rfl, fun hne => absurd rfl hne⟩
    · exact ⟨rfl, rfl, fun _ => rfl⟩

/-- So does a run. The shifted deadline is asked for outside Released only, where a run may come back with 0. -/
theorem clockShifted_cellRun (d p rt : BitVec w) (scans : List (Bool × BitVec w)) {t u : BitVec w} {st : CellState}
    (hu : st ≠ .released → u = t + off) :
    ClockShifted off (cellRun d p rt st t scans)
      (cellRun d p rt st u (scans.map fun x => (x.1, x.2 + off))) := by
  induction scans generalizing st t u with
  | nil => exact ⟨rfl, rfl, hu⟩
  | cons x scans ih =>
    obtain ⟨held, now⟩ := x
    have hnext := clockShifted_cellNext d p rt now held hu
    rw [List.map_cons, cellRun_cons, cellRun_cons, hnext.state, hnext.actions]
    have hrest := ih hnext.deadline
    exact ⟨hrest.state, congrArg ((cellNext d p rt st t held now).2.2.toList ++ ·) hrest.actions, hrest.deadline⟩

end WrapAround

/-- Settles O25 by `clockShifted_cellRun`. -/
theorem wrapAroundIsInvisible : Obligations.WrapAroundIsInvisible := by
  intro w d p rt off t st scans
  obtain ⟨hstate, hactions, hdeadline⟩ :=
    clockShifted_cellRun (off := off) d p rt scans (st := st) (t := t) fun _ => rfl
  exact ⟨hstate, hactions, hdeadline⟩

/-! ### Deadlines from the press (40_cell_fsm.md R109) -/

section Deadlines

variable {w : Nat} {d p rt n0 t : BitVec w} {st : CellState} {k : Nat}

/-- The state and the deadline of a cell that was pressed at `n0`, has repeated `k` times since and has not been
released. -/
def DownSince (d p rt n0 : BitVec w) (k : Nat) (st : CellState) (t : BitVec w) : Prop :=
  (st = .pressDebounce ∧ k = 0 ∧ t = n0 + d) ∨
    (st = .pressed ∧ k = 0 ∧ t = n0 + d + p) ∨
    (st = .repeating ∧ 1 ≤ k ∧ t = n0 + d + p + BitVec.ofNat w k * rt)

/-- Pressed has the deadline of a repeating cell that has repeated 0 times. -/
theorem downSince_held_deadline (h : DownSince d p rt n0 k st t) (hst : IsHeld st) :
    t = n0 + d + p + BitVec.ofNat w k * rt := by
  rcases h with ⟨rfl, -⟩ | ⟨-, rfl, rfl⟩ | ⟨-, -, rfl⟩
  · rcases hst with ⟨⟨⟩⟩ | ⟨⟨⟩⟩
  · simp
  · rfl

/-- A transition that does not release the key emits nothing or one Repeat, and the deadline stays that accumulated
from the press. -/
theorem downSince_cellNext (h : DownSince d p rt n0 k st t) (now : BitVec w) (held : Bool)
    (hno : Kind.release ∉ (cellNext d p rt st t held now).2.2.toList) :
    ∃ m, (cellNext d p rt st t held now).2.2.toList = List.replicate m .repeated ∧
      DownSince d p rt n0 (k + m) (cellNext d p rt st t held now).1 (cellNext d p rt st t held now).2.1 := by
  have hmove := cellMove_cellNext d p rt t now st held
  generalize cellNext d p rt st t held now = out at hmove hno ⊢
  cases hmove with
  | stay => exact ⟨0, rfl, h⟩
  | press => obtain ⟨⟨⟩, -⟩ | ⟨⟨⟩, -⟩ | ⟨⟨⟩, -⟩ := h
  | settle =>
    obtain ⟨-, rfl, rfl⟩ | ⟨⟨⟩, -⟩ | ⟨⟨⟩, -⟩ := h
    exact ⟨0, rfl, .inr (.inl ⟨rfl, rfl, rfl⟩)⟩
  | repeated hst =>
    refine ⟨1, rfl, .inr (.inr ⟨rfl, Nat.le_add_left 1 k, ?_⟩)⟩
    have hsucc : BitVec.ofNat w (k + 1) * rt = BitVec.ofNat w k * rt + rt := by
      rw [BitVec.ofNat_add, add_mul]
      simp
    rw [hsucc, ← add_assoc, ← downSince_held_deadline h hst]
  | release => simp at hno
  | free => obtain ⟨⟨⟩, -⟩ | ⟨⟨⟩, -⟩ | ⟨⟨⟩, -⟩ := h

theorem downSince_cellRun (scans : List (Bool × BitVec w)) (h : DownSince d p rt n0 k st t)
    (hno : Kind.release ∉ (cellRun d p rt st t scans).2.2) :
    ∃ m, (cellRun d p rt st t scans).2.2 = List.replicate m .repeated ∧
      DownSince d p rt n0 (k + m) (cellRun d p rt st t scans).1 (cellRun d p rt st t scans).2.1 := by
  induction scans generalizing st t k with
  | nil => exact ⟨0, rfl, h⟩
  | cons x scans ih =>
    obtain ⟨held, now⟩ := x
    rw [cellRun_cons, emitBefore_actions, List.mem_append, not_or] at hno
    obtain ⟨hfirst, hrest⟩ := hno
    obtain ⟨m, hm, hdown⟩ := downSince_cellNext h now held hfirst
    obtain ⟨n, hn, hdown⟩ := ih hdown hrest
    rw [cellRun_cons]
    exact ⟨m + n, by rw [emitBefore_actions, hm, hn, List.replicate_add], Nat.add_assoc k m n ▸ hdown⟩

end Deadlines

/-- Settles O26: the press starts `DownSince` with no Repeat, and the run keeps it (`downSince_cellRun`). -/
theorem deadlinesAccumulateFromPress : Obligations.DeadlinesAccumulateFromPress := by
  intro w d p rt t0 n0 scans
  rw [cellRun_cons, cellNext_released_press]
  intro run hno
  have hpressed : DownSince d p rt n0 0 .pressDebounce (n0 + d) := .inl ⟨rfl, rfl, rfl⟩
  obtain ⟨m, hm, hdown⟩ := downSince_cellRun scans hpressed (List.not_mem_of_not_mem_cons hno)
  rw [Nat.zero_add] at hdown
  exact ⟨m, congrArg (Kind.press :: ·) hm, hdown⟩

/-! ### The key stream (40_cell_fsm.md R108, R117) -/

section KeyStreams

variable {w : Nat}

/-- The key is down as far as the emitted actions tell: its last Press has not had its Release. -/
def keyDown : CellState → Bool
  | .released | .releaseDebounce => false
  | .pressDebounce | .pressed | .repeating => true

theorem keyDown_eq_false_iff (st : CellState) : keyDown st = false ↔ st = .released ∨ st = .releaseDebounce := by
  cases st <;> simp [keyDown]

theorem keyDown_of_held {st : CellState} (h : IsHeld st) : keyDown st = true := by
  rcases h with rfl | rfl <;> rfl

/-- What a transition emits continues the key stream from the state it leaves to the state it enters, and each
Press not yet released is a key that is down. -/
theorem keyStream_cellNext (d p rt t now : BitVec w) (st : CellState) (held : Bool) (ks : List Kind) :
    keyStream (keyDown st) ((cellNext d p rt st t held now).2.2.toList ++ ks) =
        keyStream (keyDown (cellNext d p rt st t held now).1) ks ∧
      (keyDown st).toNat + (cellNext d p rt st t held now).2.2.toList.count .press =
        (keyDown (cellNext d p rt st t held now).1).toNat +
          (cellNext d p rt st t held now).2.2.toList.count .release := by
  have hmove := cellMove_cellNext d p rt t now st held
  generalize cellNext d p rt st t held now = out at hmove
  cases hmove with
  | stay | press | settle | free => exact ⟨rfl, rfl⟩
  | repeated h | release h =>
    rw [keyDown_of_held h]
    exact ⟨rfl, rfl⟩

theorem keyStream_cellRun (d p rt t : BitVec w) (st : CellState) (scans : List (Bool × BitVec w)) :
    keyStream (keyDown st) (cellRun d p rt st t scans).2.2 = true ∧
      (keyDown st).toNat + (cellRun d p rt st t scans).2.2.count .press =
        (keyDown (cellRun d p rt st t scans).1).toNat + (cellRun d p rt st t scans).2.2.count .release := by
  induction scans generalizing st t with
  | nil => exact ⟨by rw [cellRun_nil, keyStream], rfl⟩
  | cons x scans ih =>
    obtain ⟨held, now⟩ := x
    obtain ⟨hstream, hcount⟩ := ih (cellNext d p rt st t held now).2.1 (cellNext d p rt st t held now).1
    obtain ⟨hfirst, hbalance⟩ := keyStream_cellNext d p rt t now st held
      (cellRun d p rt (cellNext d p rt st t held now).1 (cellNext d p rt st t held now).2.1 scans).2.2
    rw [cellRun_cons, emitBefore_state, emitBefore_actions, List.count_append, List.count_append]
    exact ⟨hfirst.trans hstream, by omega⟩

/-- The Presses outnumber the Releases by one while the key is down. -/
theorem cellRun_up_iff_count (d p rt t : BitVec w) (scans : List (Bool × BitVec w)) :
    ((cellRun d p rt .released t scans).1 = .released ∨ (cellRun d p rt .released t scans).1 = .releaseDebounce) ↔
      (cellRun d p rt .released t scans).2.2.count .press = (cellRun d p rt .released t scans).2.2.count .release := by
  obtain ⟨-, hcount⟩ := keyStream_cellRun d p rt t .released scans
  have hup : (keyDown .released).toNat = 0 := rfl
  rw [← keyDown_eq_false_iff, ← Bool.toNat_eq_zero]
  omega

end KeyStreams

/-- Settles O28: Released is a key that is up, so `keyStream_cellRun` reads the stream from its start. -/
theorem cellEmitsKeyStream : Obligations.CellEmitsKeyStream := by
  intro w d p rt t scans
  obtain ⟨hstream, -⟩ := keyStream_cellRun d p rt t .released scans
  exact ⟨hstream, cellRun_up_iff_count d p rt t scans⟩

/-! ### The end of PressDebounce (40_cell_fsm.md R117, R118; 70_reset_and_hazards.md R242) -/

section PressDebounce

variable {w : Nat} {d p rt t now n : BitVec (w + 1)} {held : Bool}

theorem elapsed_cons_cons (a b : BitVec w) (ts : List (BitVec w)) :
    elapsed (a :: b :: ts) = (b - a).toNat + elapsed (b :: ts) := rfl

theorem elapsed_pair (a b : BitVec w) : elapsed [a, b] = (b - a).toNat := rfl

theorem spacingBelow_cons_cons (bound : Nat) (a b : BitVec w) (ts : List (BitVec w)) :
    spacingBelow bound (a :: b :: ts) ↔ (b - a).toNat < bound ∧ spacingBelow bound (b :: ts) := Iff.rfl

/-- A scan at `n` within the horizon of an earlier moment `now` finds the deadline `t` due exactly when it has been
reached: the timeout in elapsed time. -/
theorem pressDebounce_within_horizon (hpos : 0 < (t - now).toNat) (hahead : (t - now).toNat ≤ 2 ^ w)
    (hspace : (n - now).toNat < 2 ^ w) :
    cellNext d p rt .pressDebounce t held n =
      if (n - now).toNat < (t - now).toNat then (.pressDebounce, t, none) else (.pressed, t + p, none) := by
  have hdue := noDeadlineIsSkippedWithinHorizon w now n t hpos hahead hspace
  simp only [cellNext_pressDebounce, hdue, ← Nat.not_lt, ite_not]

/-- Before the deadline, a scan takes its spacing from the time that is left. -/
theorem toNat_sub_of_not_reached (h : (n - now).toNat ≤ (t - now).toNat) :
    (t - n).toNat = (t - now).toNat - (n - now).toNat := by
  rw [← BitVec.toNat_sub_of_le h, sub_sub_sub_cancel_right]

/-- From a moment `now` in PressDebounce, with the deadline ahead of all scans but the last: those change nothing,
and the last ends the state exactly when the deadline has been reached. -/
theorem pressDebounce_run (d p rt : BitVec (w + 1)) (scans : List (Bool × BitVec (w + 1))) (held : Bool)
    (hahead : (t - now).toNat ≤ 2 ^ w) (hspace : spacingBelow (2 ^ w) (now :: (scans.map (·.2) ++ [n])))
    (hwait : elapsed (now :: scans.map (·.2)) < (t - now).toNat) :
    cellRun d p rt .pressDebounce t scans = (.pressDebounce, t, []) ∧
      cellRun d p rt .pressDebounce t (scans ++ [(held, n)]) =
        if elapsed (now :: (scans.map (·.2) ++ [n])) < (t - now).toNat then (.pressDebounce, t, [])
        else (.pressed, t + p, []) := by
  have hpos : 0 < (t - now).toNat := Nat.zero_lt_of_lt hwait
  induction scans generalizing now with
  | nil =>
    refine ⟨cellRun_nil, ?_⟩
    have hnext := pressDebounce_within_horizon (d := d) (p := p) (rt := rt) (held := held) hpos hahead hspace.1
    rw [List.map_nil, List.nil_append, List.nil_append, elapsed_pair, cellRun_cons, hnext]
    split <;> rfl
  | cons x scans ih =>
    obtain ⟨held', b⟩ := x
    obtain ⟨hb, hspace⟩ := (spacingBelow_cons_cons _ _ _ _).mp hspace
    simp only [List.map_cons, List.cons_append, elapsed_cons_cons] at hwait ⊢
    have hbefore : (b - now).toNat < (t - now).toNat := by omega
    have hleft := toNat_sub_of_not_reached hbefore.le
    have hnext := pressDebounce_within_horizon (d := d) (p := p) (rt := rt) (held := held') hpos hahead hb
    rw [if_pos hbefore] at hnext
    obtain ⟨hstays, hlast⟩ := ih (now := b) (by omega) hspace (by omega) (by omega)
    have hiff : (b - now).toNat + elapsed (b :: (scans.map (·.2) ++ [n])) < (t - now).toNat ↔
        elapsed (b :: (scans.map (·.2) ++ [n])) < (t - b).toNat := by omega
    rw [cellRun_cons, cellRun_cons, hnext, hstays, hlast, emitBefore_none, emitBefore_none]
    exact ⟨rfl, by simp only [hiff]⟩

end PressDebounce

/-- Settles O29 by `pressDebounce_run` from the moment of the press, when `D` is left to the deadline. -/
theorem pressDebounceEndsOnTime : Obligations.PressDebounceEndsOnTime := by
  intro w d p rt t0 n0 scans held n hd hspace hwait
  have hleft : n0 + d - n0 = d := add_sub_cancel_left n0 d
  obtain ⟨hstays, hlast⟩ :=
    pressDebounce_run d p rt scans held (t := n0 + d) (by rwa [hleft]) hspace (by rwa [hleft])
  rw [cellRun_cons, cellRun_cons, cellNext_released_press, hstays, hlast, hleft]
  refine ⟨rfl, ?_⟩
  split <;> rfl

end Sys2Proof.Proofs

namespace Sys2Proof.Proofs

open Sys2Proof Sys2Proof.Machine Sys2Proof.Laws

/-! ## A loop turn by turn -/

section Loops

variable {z : Sizes} {now : Tick z} {s : Block z} {y : Block z × FullCount z}

/-- A loop over `0..n-1` whose turn `m` leads from `P m` to `P (m + 1)` leads from `P 0` to `P n`. -/
theorem foldlM_range_keeps {β ε : Type} {f : β → Nat → Except ε β} {P : Nat → β → Prop} {n : Nat}
    (hturn : ∀ m x y, m < n → P m x → f x m = .ok y → P (m + 1) y) {x y : β} (hx : P 0 x)
    (h : (List.range n).foldlM f x = .ok y) : P n y := by
  induction n generalizing y with
  | zero => cases h; exact hx
  | succ n ih =>
    rw [List.range_succ, List.foldlM_append] at h
    cases hbefore : (List.range n).foldlM f x with
    | error e => rw [hbefore] at h; cases h
    | ok w =>
      have hw : P n w := ih (fun m x y hm => hturn m x y (Nat.lt_succ_of_lt hm)) hbefore
      rw [hbefore] at h
      change [n].foldlM f w = .ok y at h
      rw [List.foldlM_cons] at h
      simp only [List.foldlM_nil, bind_pure] at h
      exact hturn n w y (Nat.lt_succ_self n) hw h

/-- A sweep turn by turn: `R r` holds before row `r`, and `C r c` in that row before column `c` (41_scan.md R127). -/
theorem sweep_turns {R : Nat → Block z × FullCount z → Prop} {C : Nat → Nat → Block z × FullCount z → Prop}
    (hcfg : ∀ r x, R r x → x.1.cfg = s.cfg)
    (hrise : ∀ r x, R r x → C r 0 (driveRow r true x.1, x.2))
    (hvisit : ∀ r c x y, r < s.cfg.rows.toNat → c < s.cfg.cols.toNat → C r c x → visitCell now r x c = .ok y →
      C r (c + 1) y)
    (hfall : ∀ r x, C r s.cfg.cols.toNat x → R (r + 1) (driveRow r false x.1, x.2))
    (h0 : R 0 (s, 0)) (h : sweep now s = .ok y) : R s.cfg.rows.toNat y := by
  refine foldlM_range_keeps (fun r x y hr hx hrow => ?_) h0 h
  obtain ⟨w, hcols, rfl⟩ := visitRow_ok hrow
  rw [hcfg r x hx] at hcols
  exact hfall r w (foldlM_range_keeps (P := C r) (fun c x y hc => hvisit r c x y hr hc) (hrise r x hx) hcols)

end Loops

/-! ## What the step of one cell puts (41_scan.md R125, R129, R131) -/

section Puts

variable {z : Sizes} {cap : Nat} {q : Queue z} {i : KeyIndex z} {out : CellState × Tick z × Option Kind} {s : Block z}

theorem putAll_append (as bs : List (ActWord z)) :
    putAll cap (as ++ bs) q =
      ((putAll cap bs (putAll cap as q).1).1, (putAll cap as q).2 + (putAll cap bs (putAll cap as q).1).2) := by
  induction as generalizing q with
  | nil => simp [putAll]
  | cons a as ih =>
    simp only [List.cons_append, putAll, ih]
    exact Prod.ext rfl (Nat.add_right_comm _ _ _)

theorem putAll_count_le (as : List (ActWord z)) : (putAll cap as q).2 ≤ as.length := by
  induction as generalizing q with
  | nil => exact Nat.le_refl 0
  | cons a as ih =>
    rw [putAll, List.length_cons]
    exact Nat.add_le_add ih (by split <;> decide)

@[simp] theorem writeCell_rsp : (writeCell i out s).1.rsp = s.rsp := by
  rcases writeCell_cases i out s with ⟨_, h⟩ | ⟨k, _, h⟩ <;> rw [h]

/-- The action a transition of cell `i` emits, with the latch `b` as its shift bit. -/
def emitted (i : KeyIndex z) (b : Bool) (out : CellState × Tick z × Option Kind) : Option (ActWord z) :=
  out.2.2.map (packAction i b)

theorem writeCell_queue :
    (writeCell i out s).1.queue = (putAll s.qcap (emitted i s.latch out).toList s.queue).1 := by
  rcases writeCell_cases i out s with ⟨hk, h⟩ | ⟨k, hk, h⟩ <;> rw [h, emitted, hk] <;> rfl

theorem writeCell_full :
    (if (writeCell i out s).2 then 1 else 0) = (putAll s.qcap (emitted i s.latch out).toList s.queue).2 := by
  rcases writeCell_cases i out s with ⟨hk, h⟩ | ⟨k, hk, h⟩ <;> rw [h, emitted, hk]
  · rfl
  · exact (Nat.zero_add _).symm

theorem writeCell_trace :
    (writeCell i out s).1.trace =
      s.trace ++ ((emitted i s.latch out).map fun a => .put a (writeCell i out s).2).toList := by
  rcases writeCell_cases i out s with ⟨hk, h⟩ | ⟨k, hk, h⟩ <;> rw [h, emitted, hk]
  · exact (List.append_nil _).symm
  · rfl

theorem writeCell_trace_withoutReport :
    (writeCell i out s).1.trace.map Event.withoutReport =
      s.trace.map Event.withoutReport ++ ((emitted i s.latch out).map fun a => .put a false).toList := by
  rw [writeCell_trace, List.map_append]
  cases emitted i s.latch out <;> rfl

/-- A put that reports a full queue (41_scan.md R131). -/
def isFullPut : Event z → Bool
  | .put _ full => full
  | _ => false

/-- The number of full puts in a trace. -/
def fullPuts (tr : List (Event z)) : Nat := (tr.filter isFullPut).length

theorem fullPuts_append (tr tr' : List (Event z)) : fullPuts (tr ++ tr') = fullPuts tr + fullPuts tr' := by
  rw [fullPuts, List.filter_append, List.length_append, fullPuts, fullPuts]

@[simp] theorem fullPuts_row (r : Nat) (b : Bool) : fullPuts [(.row r b : Event z)] = 0 := rfl

@[simp] theorem fullPuts_sample (active : BitVec z.maxRows) (r c : Nat) (p : Bool) :
    fullPuts [.sample active r c p] = 0 := rfl

theorem writeCell_fullPuts :
    fullPuts (writeCell i out s).1.trace =
      fullPuts s.trace + (putAll s.qcap (emitted i s.latch out).toList s.queue).2 := by
  rw [writeCell_trace, fullPuts_append, ← writeCell_full]
  rcases writeCell_cases i out s with ⟨hk, h⟩ | ⟨k, hk, h⟩ <;> rw [h, emitted, hk]
  · rfl
  · cases (qPut s.qcap (packAction i s.latch k) s.queue).2 <;> rfl

end Puts

/-! ## A scan, lane by lane (41_scan.md R133) -/

section Lanes

variable {z : Sizes} {now : Tick z} {s : Block z}

/-- Cell `i` after its own transition in a scan of `s`. -/
def laneCell (now : Tick z) (s : Block z) (i : KeyIndex z) : Cell z :=
  ⟨(laneNext now s i).1.code, (laneNext now s i).2.1⟩

/-- The action cell `n` of the sweep emits in a scan of `s`. -/
def laneAction (now : Tick z) (s : Block z) (n : Nat) : Option (ActWord z) :=
  emitted (BitVec.ofNat z.idxW n) s.latch (laneNext now s (BitVec.ofNat z.idxW n))

/-- The queue after the puts of the first `n` cells of the sweep, and the number of full ones. -/
def lanePuts (now : Tick z) (s : Block z) (n : Nat) : Queue z × Nat :=
  putAll s.qcap ((List.range n).filterMap (laneAction now s)) s.queue

theorem lanePuts_succ (n : Nat) :
    lanePuts now s (n + 1) =
      ((putAll s.qcap (laneAction now s n).toList (lanePuts now s n).1).1,
        (lanePuts now s n).2 + (putAll s.qcap (laneAction now s n).toList (lanePuts now s n).1).2) := by
  have hlast : [n].filterMap (laneAction now s) = (laneAction now s n).toList := by
    cases h : laneAction now s n <;> simp [h]
  rw [lanePuts, List.range_succ, List.filterMap_append, hlast, putAll_append, ← lanePuts]

theorem lanePuts_ncells : lanePuts now s s.ncells = putAll s.cfg.qcap.toNat (laneActions now s) s.queue := rfl

theorem lanePuts_count_le (n : Nat) : (lanePuts now s n).2 ≤ n := by
  calc (lanePuts now s n).2 ≤ ((List.range n).filterMap (laneAction now s)).length := putAll_count_le _
    _ ≤ (List.range n).length := List.length_filterMap_le _ _
    _ = n := List.length_range

/-- The matrix in use is not larger than the one built. -/
structure Built (g : ConfigRegs z) : Prop where
  rows_le : g.rows.toNat ≤ z.maxRows
  cols_le : g.cols.toNat ≤ z.maxCols

theorem ncells_le_of_built (h : Built s.cfg) : s.ncells ≤ z.maxCells := Nat.mul_le_mul h.rows_le h.cols_le

theorem flatIndex_toNat_of_built {g : ConfigRegs z} {r c : Nat} (h : Built g) (hr : r < g.rows.toNat)
    (hc : c < g.cols.toNat) :
    (flatIndex g r c).toNat = r * g.cols.toNat + c ∧ (flatIndex g r c).toNat < z.maxCells := by
  obtain ⟨hindex, hlt, hle⟩ := flatIndex_toNat g h.rows_le h.cols_le hr hc
  exact ⟨hindex, hindex ▸ lt_of_lt_of_le hlt hle⟩

theorem cellAt_laneCells (hbuilt : Built s.cfg) (i : KeyIndex z) :
    cellAt (laneCells now s) i = if i.toNat < s.ncells then laneCell now s i else cellAt s.cells i := by
  have hindex : BitVec.ofNat z.idxW i.toNat = i := by rw [BitVec.ofNat_toNat, BitVec.setWidth_eq]
  by_cases hi : i.toNat < z.maxCells
  · rw [laneCells, cellAt_ofFn _ hi, hindex]
    split
    · rfl
    · exact (elemAt_of_lt _ _ hi).symm
  · have hsize := ncells_le_of_built hbuilt
    rw [if_neg (by omega), cellAt, cellAt, elemAt, elemAt, dif_neg hi, dif_neg hi]

/-- A sweep of `s` under way, past its first `n` cells: these have stepped and put their actions, and nothing else
but the row outputs and the trace has changed. -/
structure SweepAt (now : Tick z) (s : Block z) (n : Nat) (x : Block z × FullCount z) : Prop where
  kept : SettingsKept s x.1
  rsp : x.1.rsp = s.rsp
  cells : ∀ i, cellAt x.1.cells i = if i.toNat < n then laneCell now s i else cellAt s.cells i
  queue : x.1.queue = (lanePuts now s n).1
  count : x.2 = BitVec.ofNat z.cntW (lanePuts now s n).2
  full : fullPuts x.1.trace = fullPuts s.trace + (lanePuts now s n).2

theorem sweepAt_start : SweepAt now s 0 (s, 0) where
  kept := .refl s
  rsp := rfl
  cells _ := rfl
  queue := rfl
  count := rfl
  full := rfl

variable {n r c : Nat} {x y : Block z × FullCount z}

theorem SweepAt.driveRow (h : SweepAt now s n x) (r : Nat) (b : Bool) :
    SweepAt now s n (driveRow r b x.1, x.2) :=
  { h with
    kept := h.kept.trans (settingsKept_driveRow r b x.1)
    full := by rw [driveRow_trace, fullPuts_append, fullPuts_row]; exact h.full }

/-- The reading of the cell at row `r` and column `c` (20_memory.md R51). -/
theorem laneReading_flatIndex (hc : c < s.cfg.cols.toNat)
    (hindex : (flatIndex s.cfg r c).toNat = r * s.cfg.cols.toNat + c) :
    laneReading s (flatIndex s.cfg r c) = reading s.pins r c := by
  have hpos : 0 < s.cfg.cols.toNat := by omega
  rw [laneReading, hindex, Nat.mul_comm, Nat.mul_add_div hpos, Nat.mul_add_mod, Nat.div_eq_of_lt hc,
    Nat.mod_eq_of_lt hc, Nat.add_zero]

/-- The visit of row `r`, column `c` in a sweep of `s` on the block `u`: the sample, then the cell's own
transition. -/
def laneVisit (now : Tick z) (s : Block z) (r c : Nat) (u : Block z) : Block z × Bool :=
  writeCell (flatIndex s.cfg r c) (laneNext now s (flatIndex s.cfg r c))
    (logEvent (.sample u.rowActive r c (reading s.pins r c)) u)

/-- The sweep has not changed the cell it comes to, so that a visit makes the transition `laneNext`
(41_scan.md R133). -/
theorem SweepAt.visit_eq (h : SweepAt now s (r * s.cfg.cols.toNat + c) x) (hc : c < s.cfg.cols.toNat)
    (hindex : (flatIndex s.cfg r c).toNat = r * s.cfg.cols.toNat + c) (hv : visitCell now r x c = .ok y) :
    y = ((laneVisit now s r c x.1).1, if (laneVisit now s r c x.1).2 then x.2 + 1 else x.2) := by
  obtain ⟨st, hst, rfl⟩ := visitCell_ok hv
  have hcell : cellAt x.1.cells (flatIndex s.cfg r c) = cellAt s.cells (flatIndex s.cfg r c) := by
    rw [h.cells, if_neg (by omega)]
  rw [h.kept.cfg, hcell] at hst
  have hvisited : visited now r c st x.1 = laneVisit now s r c x.1 := by
    rw [visited, laneVisit, laneNext, hst, laneReading_flatIndex hc hindex, h.kept.cfg, h.kept.pins, hcell]
    rfl
  rw [hvisited]

/-- The queue after the put of such a visit, and whether it was full, as a number. -/
def lanePut (now : Tick z) (s : Block z) (r c : Nat) (u : Block z) : Queue z × Nat :=
  putAll u.qcap (emitted (flatIndex s.cfg r c) u.latch (laneNext now s (flatIndex s.cfg r c))).toList u.queue

section Visit

variable {u : Block z}

theorem laneVisit_cells :
    (laneVisit now s r c u).1.cells =
      cellSet u.cells (flatIndex s.cfg r c) (laneCell now s (flatIndex s.cfg r c)) :=
  writeCell_cells _ _ _

theorem laneVisit_queue : (laneVisit now s r c u).1.queue = (lanePut now s r c u).1 := writeCell_queue

theorem laneVisit_full : (if (laneVisit now s r c u).2 then 1 else 0) = (lanePut now s r c u).2 := writeCell_full

theorem laneVisit_fullPuts :
    fullPuts (laneVisit now s r c u).1.trace = fullPuts u.trace + (lanePut now s r c u).2 := by
  rw [laneVisit, writeCell_fullPuts, logEvent_trace, fullPuts_append, fullPuts_sample]
  rfl

end Visit

/-- The put of a visit continues the puts of the cells before it. -/
theorem SweepAt.lanePuts_next (h : SweepAt now s (r * s.cfg.cols.toNat + c) x) :
    lanePuts now s (r * s.cfg.cols.toNat + c + 1) =
      ((lanePut now s r c x.1).1, (lanePuts now s (r * s.cfg.cols.toNat + c)).2 + (lanePut now s r c x.1).2) := by
  rw [lanePuts_succ, lanePut, qcap_def x.1, h.kept.cfg, h.kept.latch, h.queue]
  rfl

theorem SweepAt.visitCell (h : SweepAt now s (r * s.cfg.cols.toNat + c) x) (hbuilt : Built s.cfg)
    (hr : r < s.cfg.rows.toNat) (hc : c < s.cfg.cols.toNat) (hv : visitCell now r x c = .ok y) :
    SweepAt now s (r * s.cfg.cols.toNat + c + 1) y := by
  obtain ⟨hindex, hlt⟩ := flatIndex_toNat_of_built hbuilt hr hc
  have hkept := h.kept.trans (settingsKept_visitCell hv)
  obtain rfl := h.visit_eq hc hindex hv
  refine ⟨hkept, writeCell_rsp.trans h.rsp, fun i => ?_, ?_, ?_, ?_⟩
  · rw [laneVisit_cells, cellAt_cellSet _ _ _ hlt, h.cells]
    by_cases hi : flatIndex s.cfg r c = i
    · rw [if_pos hi, ← hi, if_pos (by omega)]
    · have hne : (flatIndex s.cfg r c).toNat ≠ i.toNat := fun heq => hi (keyIndex_eq_of_toNat heq)
      rw [if_neg hi]
      exact if_congr (by omega) rfl rfl
  · rw [h.lanePuts_next, laneVisit_queue]
  · rw [h.lanePuts_next, BitVec.ofNat_add, ← h.count, ← laneVisit_full]
    split
    · rfl
    · exact (BitVec.add_zero _).symm
  · rw [h.lanePuts_next, laneVisit_fullPuts, h.full, Nat.add_assoc]

/-- A completed sweep of a built matrix is past every cell in use. -/
theorem sweepAt_sweep (hbuilt : Built s.cfg) (h : sweep now s = .ok y) : SweepAt now s s.ncells y := by
  refine sweep_turns (R := fun r => SweepAt now s (r * s.cfg.cols.toNat))
    (C := fun r c => SweepAt now s (r * s.cfg.cols.toNat + c)) (fun _ _ hx => hx.kept.cfg)
    (fun r _ hx => hx.driveRow r true) (fun _ _ _ _ hr hc hx hv => hx.visitCell hbuilt hr hc hv) (fun r x hx => ?_) ?_ h
  · rw [Nat.succ_mul]
    exact hx.driveRow r false
  · rw [Nat.zero_mul]
    exact sweepAt_start

theorem SettingsKept.block_eq {t : Block z} (h : SettingsKept s t) (hrsp : t.rsp = s.rsp)
    (hactive : t.rowActive = s.rowActive) :
    t = { s with cells := t.cells, queue := t.queue, trace := t.trace } := by
  change Block.mk t.ready t.cfgErr t.cfg t.cells t.queue t.latch t.rowActive t.shiftInd t.rsp t.pins t.pending t.trace
    t.draws = _
  rw [h.ready, h.cfgErr, h.cfg, h.latch, h.shiftInd, h.pins, h.pending, h.draws, hrsp, hactive]

/-- A completed sweep that leaves the row outputs as they were has changed the cells, the queue and the trace
alone. -/
theorem SweepAt.block_eq {u : Block z} {cnt : FullCount z} (h : SweepAt now s s.ncells (u, cnt))
    (hbuilt : Built s.cfg) (hactive : u.rowActive = s.rowActive) :
    u = { s with cells := laneCells now s, queue := (lanePuts now s s.ncells).1, trace := u.trace } := by
  have hcells : u.cells = laneCells now s := cells_ext fun i _ => by rw [h.cells i, cellAt_laneCells hbuilt]
  rw [← hcells, ← h.queue]
  exact h.kept.block_eq h.rsp hactive

/-- A scan command that completes on a configured block is a completed sweep with its response (41_scan.md R125). -/
theorem scan_next_sweep {t : Block z} {i : Instr} (hi : scanTime s i = some now) (hready : s.ready = true)
    (h : exec i ⟨z, s⟩ = .next ⟨z, t⟩) :
    Built s.cfg ∧ ∃ u cnt, sweep now s = .ok (u, cnt) ∧ t = respond (.scanned cnt) u := by
  rw [exec_scan hi, whenReady_of_ready hready, inState_eq_next_iff] at h
  obtain ⟨hrows, hcols, hsweep⟩ := scanAt_next h
  exact ⟨⟨hrows, hcols⟩, hsweep⟩

end Lanes

/-- Settles O30: a scan of legal cells completes (`scanAt_completes_iff`), and its sweep has then passed every cell
in use (`sweepAt_sweep`). -/
theorem scanIsLaneWise : Obligations.ScanIsLaneWise := by
  intro z s i now hi hready hactive hrows hcols hcells
  obtain ⟨t, hscan⟩ := (scanAt_completes_iff (now := now)).mpr ⟨hrows, hcols, hcells⟩
  obtain ⟨_, _, u, cnt, hsweep, rfl⟩ := scanAt_next hscan
  have hend := sweepAt_sweep ⟨hrows, hcols⟩ hsweep
  have hblock := hend.block_eq ⟨hrows, hcols⟩ ((sweep_rowActive hactive hsweep).trans hactive.symm)
  have hcount : cnt = BitVec.ofNat z.cntW (lanePuts now s s.ncells).2 := hend.count
  refine ⟨u.trace, ?_⟩
  rw [exec_scan hi, whenReady_of_ready hready, hscan, hblock, hcount, lanePuts_ncells]
  rfl

/-- Settles O33: a sweep counts each full put of its trace (`SweepAt.full`), and the number of cells in use, which
bounds the puts, fits the field. -/
theorem scanCountsFullPuts : Obligations.ScanCountsFullPuts := by
  intro z s t i now r hi hready htrace h hr
  obtain ⟨hbuilt, u, cnt, hsweep, rfl⟩ := scan_next_sweep hi hready h
  cases hr
  have hend := sweepAt_sweep hbuilt hsweep
  have hle := lanePuts_count_le (now := now) (s := s) s.ncells
  have hcount : cnt.toNat = (lanePuts now s s.ncells).2 := by
    rw [show cnt = _ from hend.count, BitVec.toNat_ofNat]
    exact Nat.mod_eq_of_lt (lt_of_le_of_lt (hle.trans (ncells_le_of_built hbuilt)) (maxCells_lt z))
  have hfull : fullPuts u.trace = (lanePuts now s s.ncells).2 := by
    rw [hend.full, htrace]
    exact Nat.zero_add _
  exact ⟨hcount.trans hfull.symm, hcount.trans_le hle⟩

/-! ## What a scan shows at the ports (41_scan.md R127, R129) -/

section ScanTrace

variable {z : Sizes} {now : Tick z} {s u : Block z} {r c : Nat} {x y : Block z × FullCount z}

/-- The events of the visit of row `r`, column `c`, without what a put reports. -/
def visitEvents (now : Tick z) (s : Block z) (r c : Nat) : List (Event z) :=
  .sample (onlyRow z r) r c (reading s.pins r c) ::
    ((laneNext now s (flatIndex s.cfg r c)).2.2.map fun k =>
      .put (packAction (flatIndex s.cfg r c) s.latch k) false).toList

/-- The events of row `r` from its rise to its fall. -/
def rowEvents (now : Tick z) (s : Block z) (r : Nat) : List (Event z) :=
  .row r true :: (List.range s.cfg.cols.toNat).flatMap (visitEvents now s r) ++ [.row r false]

theorem sweepTrace_eq_flatMap : sweepTrace now s = (List.range s.cfg.rows.toNat).flatMap (rowEvents now s) := rfl

theorem laneVisit_trace (hlatch : u.latch = s.latch) (hactive : u.rowActive = onlyRow z r) :
    (laneVisit now s r c u).1.trace.map Event.withoutReport =
      u.trace.map Event.withoutReport ++ visitEvents now s r c := by
  rw [laneVisit, writeCell_trace_withoutReport, logEvent_trace, logEvent_latch, hlatch, hactive, emitted,
    Option.map_map, List.map_append, List.append_assoc]
  rfl

/-- What the trace of a sweep of `s` under way has shown so far. -/
abbrev HasShown (s : Block z) (events : List (Event z)) (x : Block z × FullCount z) : Prop :=
  x.1.trace.map Event.withoutReport = s.trace.map Event.withoutReport ++ events

/-- A sweep of `s` before row `r`: all rows have fallen. -/
structure BeforeRow (now : Tick z) (s : Block z) (r : Nat) (x : Block z × FullCount z) : Prop where
  lanes : SweepAt now s (r * s.cfg.cols.toNat) x
  active : x.1.rowActive = 0
  shown : HasShown s ((List.range r).flatMap (rowEvents now s)) x

/-- A sweep of `s` in row `r`, before column `c`: only this row is active. -/
structure InRow (now : Tick z) (s : Block z) (r c : Nat) (x : Block z × FullCount z) : Prop where
  lanes : SweepAt now s (r * s.cfg.cols.toNat + c) x
  active : x.1.rowActive = onlyRow z r
  shown : HasShown s ((List.range r).flatMap (rowEvents now s) ++
    .row r true :: (List.range c).flatMap (visitEvents now s r)) x

theorem BeforeRow.rise (h : BeforeRow now s r x) : InRow now s r 0 (driveRow r true x.1, x.2) where
  lanes := h.lanes.driveRow r true
  active := by simp [h.active, onlyRow]
  shown := by
    rw [HasShown, driveRow_trace, List.map_append, h.shown, List.append_assoc]
    rfl

theorem InRow.visit (h : InRow now s r c x) (hbuilt : Built s.cfg) (hr : r < s.cfg.rows.toNat)
    (hc : c < s.cfg.cols.toNat) (hv : visitCell now r x c = .ok y) : InRow now s r (c + 1) y where
  lanes := h.lanes.visitCell hbuilt hr hc hv
  active := (visitCell_rowActive hv).trans h.active
  shown := by
    obtain rfl := h.lanes.visit_eq hc (flatIndex_toNat_of_built hbuilt hr hc).1 hv
    rw [HasShown, laneVisit_trace h.lanes.kept.latch h.active, h.shown]
    simp [List.range_succ]

theorem InRow.fall (h : InRow now s r s.cfg.cols.toNat x) : BeforeRow now s (r + 1) (driveRow r false x.1, x.2) where
  lanes := by
    rw [Nat.succ_mul]
    exact h.lanes.driveRow r false
  active := by simp [h.active, onlyRow]
  shown := by
    rw [HasShown, driveRow_trace, List.map_append, h.shown]
    simp [List.range_succ, rowEvents, Event.withoutReport]

theorem beforeRow_start (hactive : s.rowActive = 0) : BeforeRow now s 0 (s, 0) where
  lanes := by
    rw [Nat.zero_mul]
    exact sweepAt_start
  active := hactive
  shown := (List.append_nil _).symm

theorem beforeRow_sweep (hbuilt : Built s.cfg) (hactive : s.rowActive = 0) (h : sweep now s = .ok y) :
    BeforeRow now s s.cfg.rows.toNat y :=
  sweep_turns (fun _ _ hx => hx.lanes.kept.cfg) (fun _ _ hx => hx.rise)
    (fun _ _ _ _ hr hc hx hv => hx.visit hbuilt hr hc hv) (fun _ _ hx => hx.fall) (beforeRow_start hactive) h

/-- A put in the trace after a cell's step stood there before, or carries the latch. -/
theorem put_mem_writeCell_trace {i : KeyIndex z} {out : CellState × Tick z × Option Kind} {a : ActWord z}
    {full : Bool} (h : .put a full ∈ (writeCell i out u).1.trace) : .put a full ∈ u.trace ∨ actShift a = u.latch := by
  rw [writeCell_trace, List.mem_append] at h
  refine h.imp_right fun hnew => ?_
  obtain ⟨b, hb, heq⟩ := Option.map_eq_some_iff.mp (Option.mem_toList.mp hnew)
  obtain ⟨k, _, rfl⟩ := Option.map_eq_some_iff.mp hb
  cases heq
  exact actShift_packAction i u.latch k

/-- Every put in the trace of `u` carries the latch of `s`. -/
def PutsCarryLatch (s u : Block z) : Prop := ∀ a full, .put a full ∈ u.trace → actShift a = s.latch

theorem PutsCarryLatch.driveRow (h : PutsCarryLatch s u) (r : Nat) (b : Bool) : PutsCarryLatch s (driveRow r b u) :=
  fun a full ha => h a full (by simpa using ha)

theorem PutsCarryLatch.visitCell (h : PutsCarryLatch s x.1) (hkept : SettingsKept s x.1)
    (hv : visitCell now r x c = .ok y) : PutsCarryLatch s y.1 := by
  obtain ⟨st, _, rfl⟩ := visitCell_ok hv
  intro a full ha
  rcases put_mem_writeCell_trace ha with hold | hnew
  · exact h a full (by simpa using hold)
  · exact hnew.trans hkept.latch

theorem putsCarryLatch_sweep (h0 : PutsCarryLatch s s) {cnt : FullCount z} (h : sweep now s = .ok (u, cnt)) :
    PutsCarryLatch s u := by
  refine (sweep_keeps (P := fun x => SettingsKept s x.1 ∧ PutsCarryLatch s x.1) (fun _ hx => hx.1.cfg)
    (fun x r b _ hx => ?_) (fun x r c y _ _ hx hv => ?_) ⟨.refl s, h0⟩ h).2
  · exact ⟨hx.1.trans (settingsKept_driveRow r b x.1), hx.2.driveRow r b⟩
  · exact ⟨hx.1.trans (settingsKept_visitCell hv), hx.2.visitCell hx.1 hv⟩

end ScanTrace

/-- Settles O31: `sweepTrace` is what a sweep shows, turn by turn (`BeforeRow`, `InRow`). -/
theorem scanDrivesRowsInOrder : Obligations.ScanDrivesRowsInOrder := by
  intro z s t i now hi hready hactive h
  obtain ⟨hbuilt, u, cnt, hsweep, rfl⟩ := scan_next_sweep hi hready h
  have hend := beforeRow_sweep hbuilt hactive hsweep
  rw [sweepTrace_eq_flatMap]
  exact ⟨hend.active, hend.shown⟩

/-- Settles O32: every visit stamps its put with the latch, which `SettingsKept` holds fixed. -/
theorem scanStampsEveryActionWithLatch : Obligations.ScanStampsEveryActionWithLatch := by
  intro z s t i now hi htrace h
  refine ⟨(scan_writes hi h).latch, ?_⟩
  have hstart : PutsCarryLatch s s := fun a full ha => by
    rw [htrace] at ha
    cases ha
  rw [exec_scan hi, inState_eq_next_iff] at h
  rcases whenReady_next h with ⟨_, rfl⟩ | ⟨_, hscan⟩
  · exact hstart
  · obtain ⟨_, _, u, cnt, hsweep, rfl⟩ := scanAt_next hscan
    have hend : PutsCarryLatch s u := putsCarryLatch_sweep hstart hsweep
    exact hend

/-! ## What a scan reads of the configuration (41_scan.md R134) -/

section OtherConfiguration

variable {z : Sizes} {g h : ConfigRegs z} {s : Block z}

/-- Two configurations that agree in the registers a scan reads. -/
structure SameForScan (g h : ConfigRegs z) : Prop where
  rows : g.rows = h.rows
  cols : g.cols = h.cols
  debounce : g.debounce = h.debounce
  rdelay : g.rdelay = h.rdelay
  rtime : g.rtime = h.rtime
  qcap : g.qcap = h.qcap

/-- The block with another configuration. -/
def withCfg (g : ConfigRegs z) (s : Block z) : Block z := { s with cfg := g }

@[simp] theorem withCfg_cfg (g : ConfigRegs z) (s : Block z) : (withCfg g s).cfg = g := rfl
@[simp] theorem withCfg_cells (g : ConfigRegs z) (s : Block z) : (withCfg g s).cells = s.cells := rfl
@[simp] theorem withCfg_rowActive (g : ConfigRegs z) (s : Block z) : (withCfg g s).rowActive = s.rowActive := rfl
@[simp] theorem withCfg_pins (g : ConfigRegs z) (s : Block z) : (withCfg g s).pins = s.pins := rfl

theorem logEvent_withCfg (e : Event z) (s : Block z) : logEvent e (withCfg g s) = withCfg g (logEvent e s) := rfl

/-- The same in a pair with what an operation answers beside the block. -/
def withCfgFst {α : Type} (g : ConfigRegs z) (x : Block z × α) : Block z × α := (withCfg g x.1, x.2)

section Pair
variable {α : Type} (g : ConfigRegs z) (x : Block z × α)
@[simp] theorem withCfgFst_fst : (withCfgFst g x).1 = withCfg g x.1 := rfl
@[simp] theorem withCfgFst_snd : (withCfgFst g x).2 = x.2 := rfl
end Pair

theorem flatIndex_sameForScan (hg : SameForScan g h) (r c : Nat) : flatIndex g r c = flatIndex h r c := by
  rw [flatIndex, flatIndex, hg.cols]

theorem emit_withCfg (hg : SameForScan g s.cfg) (i : KeyIndex z) (k : Kind) :
    emit i k (withCfg g s) = withCfgFst g (emit i k s) :=
  emit_eq i k (withCfg g s) rfl (congrArg BitVec.toNat hg.qcap)

theorem writeCell_withCfg (hg : SameForScan g s.cfg) (i : KeyIndex z) (out : CellState × Tick z × Option Kind) :
    writeCell i out (withCfg g s) = withCfgFst g (writeCell i out s) := by
  unfold writeCell
  split
  · rfl
  · exact emit_withCfg (s := { s with cells := cellSet s.cells i ⟨out.1.code, out.2.1⟩ }) hg i _

theorem cellStep_withCfg (hg : SameForScan g s.cfg) (i : KeyIndex z) (held : Bool) (now : Tick z) :
    cellStep i held now (withCfg g s) = (cellStep i held now s).map (withCfgFst g) := by
  simp only [cellStep, withCfg_cells, withCfg_cfg, writeCell_withCfg hg, hg.debounce, hg.rdelay, hg.rtime]
  split <;> rfl

variable {now : Tick z} {r c : Nat} {x y : Block z × FullCount z}

theorem sameForScan_visitCell (hx : SameForScan g x.1.cfg) (hv : visitCell now r x c = .ok y) :
    SameForScan g y.1.cfg := by
  rwa [(settingsKept_visitCell hv).cfg]

theorem visitCell_withCfg (hx : SameForScan g x.1.cfg) :
    visitCell now r (withCfgFst g x) c = (visitCell now r x c).map (withCfgFst g) := by
  simp only [visitCell, withCfgFst_fst, withCfg_pins, withCfg_cfg, withCfg_rowActive, flatIndex_sameForScan hx,
    logEvent_withCfg]
  rw [cellStep_withCfg (s := logEvent _ x.1) hx]
  cases cellStep (flatIndex x.1.cfg r c) (reading x.1.pins r c) now
    (logEvent (.sample x.1.rowActive r c (reading x.1.pins r c)) x.1) <;> rfl

theorem columns_withCfg (hx : SameForScan g x.1.cfg) (l : List Nat) :
    l.foldlM (visitCell now r) (withCfgFst g x) = (l.foldlM (visitCell now r) x).map (withCfgFst g) :=
  foldlM_map (f := visitCell now r) (P := fun x => SameForScan g x.1.cfg) (fun _ _ _ => sameForScan_visitCell)
    (fun _ _ => visitCell_withCfg) l hx

theorem sameForScan_visitRow (hx : SameForScan g x.1.cfg) (hv : visitRow now x r = .ok y) :
    SameForScan g y.1.cfg := by
  obtain ⟨w, hcols, rfl⟩ := visitRow_ok hv
  exact foldlM_keeps (P := fun w => SameForScan g w.1.cfg) (fun _ _ _ _ => sameForScan_visitCell) hx hcols

theorem visitRow_withCfg (hx : SameForScan g x.1.cfg) :
    visitRow now (withCfgFst g x) r = (visitRow now x r).map (withCfgFst g) := by
  have hcols := columns_withCfg (now := now) (r := r) (x := (driveRow r true x.1, x.2)) hx
    (List.range x.1.cfg.cols.toNat)
  change (List.range x.1.cfg.cols.toNat).foldlM (visitCell now r) (driveRow r true (withCfg g x.1), x.2) = _ at hcols
  simp only [visitRow, withCfgFst_fst, withCfgFst_snd, withCfg_cfg, hx.cols, hcols]
  cases (List.range x.1.cfg.cols.toNat).foldlM (visitCell now r) (driveRow r true x.1, x.2) <;> rfl

theorem sweep_withCfg (hg : SameForScan g s.cfg) : sweep now (withCfg g s) = (sweep now s).map (withCfgFst g) := by
  rw [sweep, sweep, withCfg_cfg, hg.rows]
  exact foldlM_map (f := visitRow now) (P := fun x => SameForScan g x.1.cfg) (fun _ _ _ => sameForScan_visitRow)
    (fun _ _ => visitRow_withCfg) _ (x := (s, 0)) hg

theorem scanAt_withCfg (hg : SameForScan g s.cfg) :
    scanAt now (withCfg g s) = mapNext (withCfg g) (scanAt now s) := by
  simp only [scanAt, withCfg_cfg, sweep_withCfg hg, hg.rows, hg.cols]
  split
  · rfl
  · cases sweep now s <;> rfl

theorem whenReady_withCfg {o o' : Host.Outcome (Block z) Fault Refusal} (h : o' = mapNext (withCfg g) o) :
    whenReady (withCfg g s) o' = mapNext (withCfg g) (whenReady s o) := by
  cases hready : s.ready with
  | false => rw [whenReady_of_not_ready hready, whenReady_of_not_ready (s := withCfg g s) hready]; rfl
  | true => rw [whenReady_of_ready hready, whenReady_of_ready (s := withCfg g s) hready, h]

theorem scanTime_withCfg (i : Instr) : scanTime (withCfg g s) i = scanTime s i := by
  cases i <;> rfl

end OtherConfiguration

/-- Settles O34: a scan commutes with a change of the configuration that keeps the registers it reads (the `…_withCfg`
lemmas), and writes none (`scan_writes`). -/
theorem scanIgnoresShiftConfiguration : Obligations.ScanIgnoresShiftConfiguration := by
  intro z s i now g hi hrows hcols hdebounce hrdelay hrtime hqcap
  have hg : SameForScan g s.cfg := ⟨hrows, hcols, hdebounce, hrdelay, hrtime, hqcap⟩
  refine ⟨_, exec_scan hi, ?_, fun t ht => ?_⟩
  · change exec i ⟨z, withCfg g s⟩ = inState (mapNext (withCfg g) _)
    rw [exec_scan ((scanTime_withCfg i).trans hi), whenReady_withCfg (scanAt_withCfg hg)]
  · exact (scan_writes hi (by rw [exec_scan hi, ht]; rfl)).cfg

end Sys2Proof.Proofs

namespace Sys2Proof.Proofs

open Sys2Proof Sys2Proof.Machine Sys2Proof.Laws

/-! ## The queue operations in terms of the live actions (42_queue.md R140, R141, R146) -/

section LiveActions

variable {z : Sizes} {cap : Nat} {q : Queue z} {a : ActWord z}

theorem qLive_length (cap : Nat) (q : Queue z) : (qLive cap q).length = qCount cap q := slotsFrom_length _ _ _

/-- One slot always stays free (42_queue.md R146). -/
theorem qLive_length_lt (hq : q.InRange cap) : (qLive cap q).length < cap := by
  rw [qLive_length]
  exact qCount_lt hq

theorem qLive_eq_nil_iff (hq : q.InRange cap) : qLive cap q = [] ↔ q.qin = q.qout := by
  rw [← List.length_eq_zero_iff, qLive_length, qCount_eq_iff hq (Nat.zero_lt_of_lt hq.1), Nat.add_zero,
    Nat.mod_eq_of_lt hq.2, BitVec.toNat_inj, eq_comm]

theorem qPut_full_iff (a : ActWord z) (hcap : cap ≤ z.maxQ) (hq : q.InRange cap) :
    (qPut cap a q).2 = true ↔ (qLive cap q).length + 1 = cap := by
  rw [qLive_length, ← qNext_qin_eq_qout_iff hcap hq]
  rcases qPut_cases cap a q with ⟨hroom, hput⟩ | ⟨hmeet, hput⟩ <;> rw [hput]
  · simp [hroom]
  · simp [hmeet]

theorem qPut_of_room (a : ActWord z) (hge : 2 ≤ cap) (hcap : cap ≤ z.maxQ) (hq : q.InRange cap)
    (hroom : (qLive cap q).length + 1 < cap) :
    (qPut cap a q).2 = false ∧ qLive cap (qPut cap a q).1 = qLive cap q ++ [a] := by
  have hfull : (qPut cap a q).2 = false :=
    Bool.eq_false_iff.mpr fun h => hroom.ne ((qPut_full_iff a hcap hq).mp h)
  exact ⟨hfull, by simp [qLive_qPut a hge hcap hq, hfull]⟩

theorem qPut_of_full (a : ActWord z) (hge : 2 ≤ cap) (hcap : cap ≤ z.maxQ) (hq : q.InRange cap)
    (hlen : (qLive cap q).length + 1 = cap) :
    (qPut cap a q).2 = true ∧ qLive cap (qPut cap a q).1 = (qLive cap q).tail ++ [a] := by
  have hfull := (qPut_full_iff a hcap hq).mpr hlen
  exact ⟨hfull, by simp [qLive_qPut a hge hcap hq, hfull]⟩

/-- A get finds the head of the live actions, and leaves the tail. -/
theorem qGet_of_qLive_cons {rest : List (ActWord z)} (hcap : cap ≤ z.maxQ) (hq : q.InRange cap)
    (h : qLive cap q = a :: rest) : ∃ q', qGet cap q = some (a, q') ∧ qLive cap q' = rest := by
  have hne : q.qin ≠ q.qout := fun hempty => by simp [(qLive_eq_nil_iff hq).mpr hempty] at h
  have hget := qGet_of_ne (cap := cap) hne
  obtain ⟨ha, hrest⟩ := List.cons.inj ((qLive_of_qGet hcap hq hget).symm.trans h)
  exact ⟨_, ha ▸ hget, hrest⟩

theorem putAll_singleton (a : ActWord z) (q : Queue z) :
    putAll cap [a] q = ((qPut cap a q).1, if (qPut cap a q).2 then 1 else 0) := by
  simp [putAll]

/-- Puts that all find room append their actions, and none reports full. -/
theorem putAll_of_room (as : List (ActWord z)) (hge : 2 ≤ cap) (hcap : cap ≤ z.maxQ) (hq : q.InRange cap)
    (hroom : (qLive cap q).length + as.length < cap) :
    (putAll cap as q).1.InRange cap ∧ qLive cap (putAll cap as q).1 = qLive cap q ++ as ∧ (putAll cap as q).2 = 0 := by
  induction as generalizing q with
  | nil => exact ⟨hq, (List.append_nil _).symm, rfl⟩
  | cons a as ih =>
    rw [List.length_cons] at hroom
    obtain ⟨hfull, hlive⟩ := qPut_of_room a hge hcap hq (by omega)
    have hrest := ih (qPut_inRange a hcap hq) (by rw [hlive, List.length_append, List.length_singleton]; omega)
    simpa [putAll, hfull, hlive] using hrest

end LiveActions

/-- Settles O36: the count of live actions decides whether the advanced `QIN` meets `QOUT` (`qPut_full_iff`), and a put
turns the ring by `qLive_qPut`. -/
theorem qPutIsBoundedFifo : Obligations.QPutIsBoundedFifo := by
  intro z cap a q hge hcap hq
  have hlen := qLive_length_lt hq
  refine ⟨qPut_inRange a hcap hq, ?_, qLive_qPut a hge hcap hq, by omega⟩
  rw [qPut_full_iff a hcap hq]
  omega

/-- Settles O37: equal indices are an empty ring (`qLive_eq_nil_iff`), and a get takes the head of any other
(`qLive_of_qGet`). -/
theorem qGetTakesOldest : Obligations.QGetTakesOldest := by
  intro z cap q _ hcap hq
  refine ⟨(qGet_eq_none_iff cap q).trans (qLive_eq_nil_iff hq).symm, fun a q' hget => ?_⟩
  refine ⟨qLive_of_qGet hcap hq hget, qGet_inRange hcap hq hget, ?_⟩
  obtain ⟨_, _, rfl⟩ := qGet_some hget
  exact ⟨rfl, rfl⟩

/-- Settles O38: all actions but the last find room (`putAll_of_room`) and fill the queue, so that the last put drops
the oldest (`qPut_of_full`). -/
theorem capacityPutsDropOnlyOldest : Obligations.CapacityPutsDropOnlyOldest := by
  intro z cap q as hge hcap hq hempty hlen
  rcases List.eq_nil_or_concat' as with rfl | ⟨init, a, rfl⟩
  · simp at hlen
    omega
  rw [List.length_append, List.length_singleton] at hlen
  obtain ⟨hrange, hlive, hcount⟩ :=
    putAll_of_room init hge hcap hq (by rw [hempty, List.length_nil]; omega)
  rw [hempty, List.nil_append] at hlive
  obtain ⟨hfull, hlast⟩ := qPut_of_full a hge hcap hrange (by rw [hlive]; exact hlen)
  rw [hlive] at hlast
  have hne : init ≠ [] := List.ne_nil_of_length_pos (by omega)
  rw [putAll_append, putAll_singleton, List.dropLast_concat, List.tail_append_of_ne_nil hne]
  exact ⟨hlast, by simp [hcount, hfull], hcount⟩

/-! ## The queue commands (42_queue.md R144, R145) -/

section QueueCommands

variable {z : Sizes} {s : Block z} {a : ActWord z} {q : Queue z}

theorem exec_nextAction_of_get (hready : s.ready = true) (hget : qGet s.qcap s.queue = some (a, q)) :
    exec .nextAction ⟨z, s⟩ = inState (rawOutcome a { s with queue := q }) := by
  rw [exec_nextAction, whenReady_of_ready hready, takeAction_of_some hget]

theorem rawOutcome_of_kind (h : actKindBits a ≠ 0b11#2) : rawOutcome a s = .next (respond (.rawAction a) s) := by
  rcases rawOutcome_cases a s with ⟨hkind, _⟩ | ⟨_, hraw⟩
  · exact absurd hkind h
  · exact hraw

theorem rawOutcome_of_reserved (h : actKindBits a = 0b11#2) : rawOutcome a s = .fault (.badActionKind a.toNat) := by
  rcases rawOutcome_cases a s with ⟨_, hraw⟩ | ⟨hkind, _⟩
  · exact hraw
  · exact absurd h hkind

end QueueCommands

/-- Settles O40: the head of the live actions is what a get finds (`qGet_of_qLive_cons`), and in a legal state its
kind is none that would stop the command. -/
theorem nextActionIsFifo : Obligations.NextActionIsFifo := by
  intro z s a rest hinv hready hlive
  obtain ⟨q', hget, hrest⟩ := qGet_of_qLive_cons (hinv.config hready).qcap_le (hinv.queue_range hready) hlive
  obtain ⟨⟨hwf, _⟩, _⟩ := (inv_keyboard hinv hready).get hget
  have hkind : actKindBits a ≠ 0b11#2 := by simpa [kindBitsWf] using hwf
  refine ⟨respond (.rawAction a) { s with queue := q' }, ?_, rfl, hrest, rfl, rfl, rfl, rfl⟩
  rw [exec_nextAction_of_get hready hget, rawOutcome_of_kind hkind, inState_next]

/-- Settles O39, one outcome of the command after the other. -/
theorem nextActionReturnsRawAction : Obligations.NextActionReturnsRawAction := by
  intro z s now
  refine ⟨decode_of_opcode rfl nofun, fun hready => ?_, fun hready hempty => ?_, fun hready hne hkind => ?_,
    fun hready hne hkind => ?_⟩
  · exact notReadyRefusesCommands z s .nextAction hready nofun nofun
  · exact execNextAction_of_eq hready hempty
  · rw [exec_nextAction_of_get hready (qGet_of_ne hne), rawOutcome_of_kind hkind]
    rfl
  · rw [exec_nextAction_of_get hready (qGet_of_ne hne), rawOutcome_of_reserved hkind, inState_fault]

/-- Settles O41: a completed `QUEUE_CLEAR` has cleared the queue (`execQueueClear_of_ready`), so that no action is
live (`qLive_qClear`); it reads neither index, so that a second one writes what already stands. -/
theorem queueClearEmptiesQueue : Obligations.QueueClearEmptiesQueue := by
  intro z s now
  refine ⟨decode_of_opcode rfl nofun, fun hready => ?_, fun hready => ⟨?_, fun t ht => ?_⟩⟩
  · exact notReadyRefusesCommands z s .queueClear hready nofun nofun
  · exact execQueueClear_of_ready hready
  · cases (execQueueClear_of_ready hready).symm.trans ht
    exact ⟨execQueueClear_of_ready hready, qLive_qClear _ _⟩

end Sys2Proof.Proofs

namespace Sys2Proof.Proofs

open Sys2Proof Sys2Proof.Machine Sys2Proof.Laws

/-! ## What NEXT_KEY reads (43_shift.md R161 to R164) -/

section Resolution

variable {z : Sizes} {s : Block z} {g : ConfigRegs z} {i : KeyIndex z} {a : ActWord z} {q : Queue z}
  {p : Policy} {latch shift : Bool} {key : KeyChar} {w : Option Bool} {ch : Option KeyChar}

theorem policyName_eq_iff (g : ConfigRegs z) (p : Policy) : g.policyName = p ↔ g.policy = p.code :=
  policy_ofCode_eq_iff g.policy p

theorem isShift_iff :
    isShift g i = true ↔ g.policyName ≠ .off ∧ g.shiftPresent = true ∧ mapAt g.umap i = g.shiftChar := by
  simp [isShift, and_assoc]

theorem isShift_eq_false_iff :
    isShift g i = false ↔ g.policyName = .off ∨ g.shiftPresent = false ∨ mapAt g.umap i ≠ g.shiftChar := by
  rw [← Bool.not_eq_true, isShift_iff, not_and_or, not_and_or, not_not, Bool.not_eq_true]

theorem shiftPressLatch_of_ne_off (hp : p ≠ .off) :
    shiftPressLatch p latch = some (if p = .hold then true else !latch) := by
  cases p with
  | off => exact absurd rfl hp
  | oneShot | lock | hold => rfl

theorem resolution_release (hk : actKind? a = some .release) :
    resolution a p latch shift key = (if p = .hold ∧ shift = true then some false else none, none) := if_pos hk

theorem resolution_shiftKey (hk : actKind? a ≠ some .release) :
    resolution a p latch true key = (shiftPressLatch p latch, none) := if_neg hk

theorem resolution_otherKey (hk : actKind? a ≠ some .release) :
    resolution a p latch false key = (if p = .oneShot then some false else none, some key) := if_neg hk

/-- The kinds that a pressed key emits, Press and Repeat (43_shift.md R174). -/
theorem actKind?_of_press_or_repeat (h : actKindBits a = 0b00#2 ∨ actKindBits a = 0b10#2) :
    actKind? a ≠ none ∧ actKind? a ≠ some .release := by
  rcases h with h | h
  · simp [(actKind?_eq_some_iff a .press).mpr h]
  · simp [(actKind?_eq_some_iff a .repeated).mpr h]

/-- The resolution of `a` with the configuration `g` and the latch at `latch`. -/
def resolutionUnder (g : ConfigRegs z) (latch : Bool) (a : ActWord z) : Option Bool × Option KeyChar :=
  resolution a g.policyName latch (isShift g (actIndex a)) (keyChar g latch (actIndex a))

/-- RESOLVE of an action with one of the three kinds completes, and reads no more than `resolution` does. -/
theorem resolve_of_kind (hk : actKind? a ≠ none) :
    resolve a s = .ok ((resolutionUnder s.cfg s.latch a).1.elim s (setLatch · s),
      (resolutionUnder s.cfg s.latch a).2) := by
  obtain ⟨u, ch, hres⟩ : ∃ u ch, resolve a s = .ok (u, ch) := by
    rcases resolve_cases a s with ⟨hnone, _⟩ | ⟨_, _, _, hr⟩ | ⟨_, _, hr⟩ | ⟨_, _, _, _, hr⟩ | ⟨_, _, hr⟩
    · exact absurd hnone hk
    all_goals exact ⟨_, _, hr⟩
  obtain ⟨w, hw, rfl⟩ := resolve_eq_resolution hres
  rw [hres, show resolutionUnder s.cfg s.latch a = (w, ch) from hw]

theorem resolutionUnder_stamp (i : KeyIndex z) (k : Kind) (b c : Bool) :
    resolutionUnder g latch (packAction i b k) = resolutionUnder g latch (packAction i c k) := by
  simp only [resolutionUnder, resolution, actIndex_packAction, actKind?_packAction]

/-- `NEXT_KEY` on a queue that holds an action: the queue without it, the latch and the indicator as its resolution
says, and the response to its character (43_shift.md R175). -/
theorem exec_nextKey_of_get (hready : s.ready = true) (hget : qGet s.qcap s.queue = some (a, q))
    (hk : actKind? a ≠ none) (hw : resolutionUnder s.cfg s.latch a = (w, ch)) :
    exec .nextKey ⟨z, s⟩ =
      .next ⟨z, { s with
        queue := q
        latch := w.getD s.latch
        shiftInd := w.elim s.shiftInd (s.cfg.indPresent && ·)
        rsp := some (keyResponse ch) }⟩ := by
  rw [exec_nextKey, whenReady_of_ready hready, takeAction_of_some hget, resolve_of_kind hk, hw]
  cases w with
  | none => cases ch <;> rfl
  | some b => cases ch <;> simp [keyOutcome, respond, keyResponse, setLatch, syncInd, hready]

end Resolution

/-- Settles O42: equal indices leave nothing to take (`execNextKey_of_eq`). -/
theorem nextKeyOnEmptyQueue : Obligations.NextKeyOnEmptyQueue :=
  fun _ _ hready hempty => execNextKey_of_eq hready hempty

/-- Settles O43: a Release writes the latch only for the shift key under Hold (`resolution_release`). -/
theorem nextKeyDrainsRelease : Obligations.NextKeyDrainsRelease := by
  intro z s a hready hne ha hkind clears
  have hk := (actKind?_eq_some_iff a .release).mpr hkind
  have hclears : s.cfg.policyName = .hold ∧ isShift s.cfg (actIndex a) = true ↔ clears := by
    rw [isShift_iff]
    exact (and_congr_right fun hhold => by simp [hhold]).trans (and_congr_left' (policyName_eq_iff s.cfg .hold))
  have hnext := exec_nextKey_of_get hready (ha ▸ qGet_of_ne hne) (by simp [hk]) (resolution_release hk)
  refine ⟨fun hc => ?_, fun hc => ?_⟩
  · rw [hnext, if_pos (hclears.mpr hc), Option.elim_some, Bool.and_false]
    rfl
  · rw [hnext, if_neg (mt hclears.mp hc)]
    rfl

/-- Settles O44: a shift key's Press or Repeat writes the latch (`resolution_shiftKey`), and only Hold does not toggle
it (`shiftPressLatch_of_ne_off`). -/
theorem nextKeyShiftKeyWritesLatch : Obligations.NextKeyShiftKeyWritesLatch := by
  intro z s a hready hne ha hkind hpolicy hpresent hchar
  obtain ⟨hk, hrel⟩ := actKind?_of_press_or_repeat hkind
  have hoff : s.cfg.policyName ≠ .off := mt (policyName_eq_iff s.cfg .off).mp hpolicy
  have hw : resolutionUnder s.cfg s.latch a = (some (if s.cfg.policy = 3#2 then true else !s.latch), none) := by
    rw [resolutionUnder, isShift_iff.mpr ⟨hoff, hpresent, hchar⟩, resolution_shiftKey hrel,
      shiftPressLatch_of_ne_off hoff]
    simp only [policyName_eq_iff, Policy.code]
  exact exec_nextKey_of_get hready (ha ▸ qGet_of_ne hne) hk hw

/-- Settles O45: the key is not the shift key, and so yields its character (`resolution_otherKey`); only OneShot then
writes the latch. -/
theorem nextKeyReturnsCharacter : Obligations.NextKeyReturnsCharacter := by
  intro z s a hready hne ha hkind hother ch
  obtain ⟨hk, hrel⟩ := actKind?_of_press_or_repeat hkind
  have hshift : isShift s.cfg (actIndex a) = false :=
    isShift_eq_false_iff.mpr (hother.imp_left (policyName_eq_iff s.cfg .off).mpr)
  have hw : resolutionUnder s.cfg s.latch a = (if s.cfg.policy = 1#2 then some false else none, some ch) := by
    rw [resolutionUnder, hshift, resolution_otherKey hrel, keyChar]
    simp only [policyName_eq_iff, Policy.code, ne_eq, ch]
  rw [exec_nextKey_of_get hready (ha ▸ qGet_of_ne hne) hk hw]
  by_cases hone : s.cfg.policy = 1#2
  · simp only [if_pos hone, Option.elim_some, Bool.and_false]
    rfl
  · simp only [if_neg hone]
    rfl

/-- Settles O47: RESOLVE of a packed action completes (`resolve_of_kind`), and what it reads of the word is the index
and the kind (`resolutionUnder_stamp`). -/
theorem resolutionIgnoresStamp : Obligations.ResolutionIgnoresStamp := by
  intro z s i k b c
  have hres (d : Bool) := resolve_of_kind (s := s) (a := packAction i d k) (by simp)
  exact ⟨by rw [hres b, hres c, resolutionUnder_stamp i k b c], _, hres b⟩

/-! ## Runs of NEXT_KEY from a legal state (43_shift.md R177, R178) -/

section KeyRuns

variable {z : Sizes} {s : Block z} {g : ConfigRegs z} {latch : Bool} {a : ActWord z} {rest : List (ActWord z)}
  {i : KeyIndex z} {b : Bool}

/-- A legal configured state with the configuration `g`, the latch at `latch` and the live actions `acts`. -/
structure Queued (g : ConfigRegs z) (latch : Bool) (acts : List (ActWord z)) (s : Block z) : Prop where
  inv : s.Inv
  ready : s.ready = true
  cfg : s.cfg = g
  latch_eq : s.latch = latch
  live : qLive g.qcap.toNat s.queue = acts

theorem Queued.legal (h : Queued g latch rest s) : g.Legal := h.cfg ▸ h.inv.config h.ready

theorem Queued.qLive_eq (h : Queued g latch rest s) : qLive s.qcap s.queue = rest := by
  rw [Block.qcap, h.cfg, h.live]

/-- One `NEXT_KEY` takes the first live action and leaves the latch as its resolution says. -/
theorem Queued.next {w : Option Bool} {ch : Option KeyChar} (h : Queued g latch (a :: rest) s)
    (hw : resolutionUnder g latch a = (w, ch)) :
    ∃ t, exec .nextKey ⟨z, s⟩ = .next ⟨z, t⟩ ∧ t.rsp = some (keyResponse ch) ∧ Queued g (w.getD latch) rest t := by
  obtain ⟨hinv, hready, rfl, rfl, hlive⟩ := h
  have hkb := inv_keyboard hinv hready
  obtain ⟨q, hget, hrest⟩ := qGet_of_qLive_cons hkb.config.qcap_le hkb.queue_range hlive
  obtain ⟨⟨hwf, _⟩, _⟩ := hkb.get hget
  have hk : actKind? a ≠ none := mt (kind_ofCode?_eq_none_iff _).mp (by simpa [kindBitsWf] using hwf)
  have hexec := exec_nextKey_of_get hready hget hk hw
  exact ⟨_, hexec, rfl, inv_exec hinv hexec, hready, rfl, rfl, hrest⟩

theorem Queued.next_shiftPress {latch' : Bool} (h : Queued g latch (packAction i b .press :: rest) s)
    (hpolicy : g.policyName ≠ .off) (hlatch : shiftPressLatch g.policyName latch = some latch')
    (hshift : mapAt g.umap i = g.shiftChar) :
    ∃ t, exec .nextKey ⟨z, s⟩ = .next ⟨z, t⟩ ∧ t.rsp = some .drained ∧ Queued g latch' rest t := by
  refine h.next (w := some latch') (ch := none) ?_
  rw [resolutionUnder, actIndex_packAction, isShift_iff.mpr ⟨hpolicy, h.legal.shift_key hpolicy, hshift⟩,
    resolution_shiftKey (by simp), hlatch]

theorem Queued.next_keyPress (h : Queued g latch (packAction i b .press :: rest) s)
    (hpolicy : g.policyName ≠ .off) (hkey : mapAt g.umap i ≠ g.shiftChar) :
    ∃ t, exec .nextKey ⟨z, s⟩ = .next ⟨z, t⟩ ∧
      t.rsp = some (.key (if latch then mapAt g.smap i else mapAt g.umap i)) ∧
      Queued g (if g.policyName = .oneShot then false else latch) rest t := by
  have hw : resolutionUnder g latch (packAction i b .press) =
      (if g.policyName = .oneShot then some false else none,
        some (if latch then mapAt g.smap i else mapAt g.umap i)) := by
    rw [resolutionUnder, actIndex_packAction, isShift_eq_false_iff.mpr (.inr (.inr hkey)),
      resolution_otherKey (by simp), keyChar]
    simp only [ne_eq, hpolicy, not_false_eq_true, true_and]
  obtain ⟨t, hexec, hrsp, hqueued⟩ := h.next hw
  exact ⟨t, hexec, hrsp, by rwa [apply_ite (Option.getD · latch)] at hqueued⟩

end KeyRuns

/-- Settles O48: the shift Press sets the latch, the first key is shifted and clears it, the second finds it clear. -/
theorem oneShotShiftsOneKey : Obligations.OneShotShiftsOneKey := by
  intro z s i j k b₁ b₂ b₃ rest hinv hready hpolicy hlatch hlive hi hj hk
  have hone : s.cfg.policyName = .oneShot := hpolicy
  have hoff : s.cfg.policyName ≠ .off := by simp [hone]
  have h₀ : Queued s.cfg false _ s := ⟨hinv, hready, rfl, hlatch, hlive⟩
  obtain ⟨t₁, he₁, hr₁, h₁⟩ := h₀.next_shiftPress hoff (by rw [hone]; rfl) hi
  obtain ⟨t₂, he₂, hr₂, h₂⟩ := h₁.next_keyPress hoff hj
  rw [if_pos hone] at h₂
  obtain ⟨t₃, he₃, hr₃, h₃⟩ := h₂.next_keyPress hoff hk
  rw [if_pos hone] at h₃
  exact ⟨t₁, t₂, t₃, he₁, he₂, he₃, hr₁, h₁.latch_eq, hr₂, h₂.latch_eq, hr₃, h₃.latch_eq, h₃.qLive_eq⟩

/-- Settles O49: each of the two shift Presses toggles the latch, and the indicator follows it in every legal state. -/
theorem oneShotDoubleShiftCancels : Obligations.OneShotDoubleShiftCancels := by
  intro z s i j b₁ b₂ rest hinv hready hpolicy hlive hi hj
  have hone : s.cfg.policyName = .oneShot := hpolicy
  have hoff : s.cfg.policyName ≠ .off := by simp [hone]
  have h₀ : Queued s.cfg s.latch _ s := ⟨hinv, hready, rfl, rfl, hlive⟩
  obtain ⟨t₁, he₁, hr₁, h₁⟩ := h₀.next_shiftPress hoff (by rw [hone]; rfl) hi
  obtain ⟨t₂, he₂, hr₂, h₂⟩ := h₁.next_shiftPress hoff (by rw [hone]; rfl) hj
  rw [Bool.not_not] at h₂
  refine ⟨t₁, t₂, he₁, he₂, hr₁, hr₂, h₂.latch_eq, ?_, h₂.qLive_eq⟩
  rw [h₂.inv.indicator, hinv.indicator, h₂.ready, hready, h₂.cfg, h₂.latch_eq]

/-- Settles O50: the first shift Press sets the latch, the key after it leaves it set, and the second shift Press
clears it again. -/
theorem lockShiftsBetweenShiftPresses : Obligations.LockShiftsBetweenShiftPresses := by
  intro z s i j k l b₁ b₂ b₃ b₄ rest hinv hready hpolicy hlatch hlive hi hj hk hl
  have hlock : s.cfg.policyName = .lock := hpolicy
  have hoff : s.cfg.policyName ≠ .off := by simp [hlock]
  have hone : s.cfg.policyName ≠ .oneShot := by simp [hlock]
  have h₀ : Queued s.cfg false _ s := ⟨hinv, hready, rfl, hlatch, hlive⟩
  obtain ⟨t₁, he₁, hr₁, h₁⟩ := h₀.next_shiftPress hoff (by rw [hlock]; rfl) hi
  obtain ⟨t₂, he₂, hr₂, h₂⟩ := h₁.next_keyPress hoff hj
  rw [if_neg hone] at h₂
  obtain ⟨t₃, he₃, hr₃, h₃⟩ := h₂.next_shiftPress hoff (by rw [hlock]; rfl) hk
  obtain ⟨t₄, he₄, hr₄, h₄⟩ := h₃.next_keyPress hoff hl
  rw [if_neg hone] at h₄
  exact ⟨t₁, t₂, t₃, t₄, he₁, he₂, he₃, he₄, hr₁, hr₂, h₂.latch_eq, hr₃, hr₄, h₄.latch_eq, h₄.qLive_eq⟩

end Sys2Proof.Proofs

namespace Sys2Proof.Proofs

open Sys2Proof Sys2Proof.Machine Sys2Proof.Laws

/-! ## CONFIGURE (44_configure.md R190 to R194) -/

section Configuring

variable {z : Sizes} {s : Block z} {e : CfgError}

/-- A table of tests tried in order: the first that holds gives the answer, else the rest of the table does. -/
theorem elim_find?_cons {α β : Type} (p : α → Bool) (a : α) (l : List α) (d : β) (f : α → β) :
    ((a :: l).find? p).elim d f = if p a then f a else (l.find? p).elim d f := by
  cases h : p a <;> simp [h]

/-- With the latch clear the indicator is off, whatever `READY` and `IND_PRESENT` are (10_state.md R35). -/
theorem syncInd_of_latch_clear (h : s.latch = false) : syncInd s = { s with shiftInd := false } := by
  rw [syncInd, h, Bool.and_false]

/-- `INIT()` clears the latch, so the indicator is off already when `READY` is set (44_configure.md R192). -/
theorem acceptConfig_eq (c : CfgInputs z) (s : Block z) :
    acceptConfig c s =
      { s with
        ready := true, cfgErr := 0, cfg := loadConfig c, cells := initCells (loadConfig c).ncells s.cells
        queue := qClear s.queue, latch := false, shiftInd := false } :=
  syncInd_of_latch_clear rfl

theorem rejectConfig_eq (e : CfgError) (s : Block z) :
    rejectConfig e s =
      { unspecify s with ready := false, cfgErr := e.code, latch := false, shiftInd := false } :=
  syncInd_of_latch_clear rfl

theorem exec_configure_of_accepted (h : checkConfig s.pins.cfg = none) :
    exec .configure ⟨z, s⟩ = .next ⟨z, respond (.ofStatus .ok) (acceptConfig s.pins.cfg s)⟩ := by
  rw [exec_configure, configureWith, h, inState_next]

theorem exec_configure_of_rejected (h : checkConfig s.pins.cfg = some e) :
    exec .configure ⟨z, s⟩ = .next ⟨z, respond (.cfgRejected e) (rejectConfig e s)⟩ := by
  rw [exec_configure, configureWith, h, inState_next]

end Configuring

/-- Settles O15: `CHECK()` tries its table from the top (`elim_find?_cons`), and a policy other than Off is one
whose code is not 0 (`policy_ofCode_eq_iff`). -/
theorem checkReportsFirstFailingTest : Obligations.CheckReportsFirstFailingTest := by
  intro z c
  have hpolicy : Policy.ofCode c.policy ≠ .off ↔ c.policy ≠ 0#2 := not_congr (policy_ofCode_eq_iff c.policy .off)
  simp only [checkConfig, cfgTests, elim_find?_cons, cfgFails, decide_eq_true_eq, hpolicy]
  rfl

/-- Settles O16: the accepted block, field by field (`acceptConfig_eq`). -/
theorem configureLoadsAndInitialises : Obligations.ConfigureLoadsAndInitialises := by
  intro z s hcheck
  rw [exec_configure_of_accepted hcheck, acceptConfig_eq]
  rfl

/-- Settles O17: the rejected block, field by field (`rejectConfig_eq`); it is not `READY`, so it refuses every other
command as O13 says (`notReadyRefusesCommands`). -/
theorem configureRejectsWhole : Obligations.ConfigureRejectsWhole := by
  intro z s e hcheck
  refine ⟨_, exec_configure_of_rejected hcheck, ?_⟩
  rw [rejectConfig_eq]
  exact ⟨rfl, rfl, rfl, rfl, rfl, rfl, rfl, rfl, rfl, fun i => notReadyRefusesCommands z _ i rfl⟩

/-! ## NOP (44_configure.md R195) -/

/-- Settles O14: opcode 0 selects `NOP` whatever `cmd_now` is (`decode_of_opcode`), and `NOP` only responds. -/
theorem nopLeavesBlockUnchanged : Obligations.NopLeavesBlockUnchanged :=
  fun _ _ _ => ⟨decode_of_opcode rfl nofun, rfl⟩

end Sys2Proof.Proofs

namespace Sys2Proof.Proofs

open Sys2Proof Sys2Proof.Machine Sys2Proof.Laws

/-! ## A step without a command (60_exceptions.md R227, 70_reset_and_hazards.md R235) -/

section WithoutCommand

variable {z : Sizes} {s : Block z}

theorem step_of_reset (hrst : s.pins.rstN = false) :
    step ⟨z, s⟩ = .next ⟨z, advance (powerOnReset (accept s))⟩ := by
  simp [step, hrst]

theorem step_of_idle (hrst : s.pins.rstN = true) (hvalid : s.pins.cmdValid = false) :
    step ⟨z, s⟩ = .next ⟨z, advance (accept s)⟩ := by
  simp [step, hrst, hvalid]

end WithoutCommand

/-- Settles O11: an idle step is `accept` and the ports moving on (`step_of_idle`). -/
theorem stepIdlesWithoutCommand : Obligations.StepIdlesWithoutCommand :=
  fun _ _ => step_of_idle

/-! ## Every step from a legal state completes (60_exceptions.md R210) -/

section Progress

variable {z : Sizes} {s : Block z}

theorem whenReady_completes {o : Host.Outcome (Block z) Fault Refusal} (h : s.ready = true → ∃ t, o = .next t) :
    ∃ t, whenReady s o = .next t := by
  cases hready : s.ready with
  | false => exact ⟨_, whenReady_of_not_ready hready o⟩
  | true =>
    rw [whenReady_of_ready hready]
    exact h hready

/-- The matrix of a legal configuration is built, and its cells hold one of the five states (10_state.md R24, R27). -/
theorem scanAt_completes (h : s.Inv) (hready : s.ready = true) (now : Tick z) : ∃ t, scanAt now s = .next t := by
  have hconfig := h.config hready
  refine scanAt_completes_iff.mpr ⟨hconfig.rows_le, hconfig.cols_le, fun i hi => ?_⟩
  obtain ⟨hst, _⟩ := h.cells hready i hi
  simpa [cellStateBitsWf] using hst

/-- The action that a legal queue gives is a live one, and so has one of the three kinds (30_encoding.md R82). -/
theorem takeAction_completes {use : ActWord z → Block z → Host.Outcome (Block z) Fault Refusal}
    (huse : ∀ a u, (∃ t, use a u = .next t) ↔ actKindBits a ≠ 0b11#2) (h : s.Inv) (hready : s.ready = true) :
    ∃ t, takeAction use s = .next t := by
  refine (takeAction_completes_iff huse).mpr (or_iff_not_imp_left.mpr fun hne => ?_)
  obtain ⟨⟨hkind, _⟩, _⟩ := (inv_keyboard h hready).get (qGet_of_ne hne)
  simpa [kindBitsWf] using hkind

theorem exec_completes (h : s.Inv) (i : Instr) : ∃ t : Block z, exec i ⟨z, s⟩ = .next ⟨z, t⟩ := by
  have hgated {o : Host.Outcome (Block z) Fault Refusal} (hexec : exec i ⟨z, s⟩ = inState (whenReady s o))
      (ho : s.ready = true → ∃ t, o = .next t) : ∃ t : Block z, exec i ⟨z, s⟩ = .next ⟨z, t⟩ :=
    (whenReady_completes ho).imp fun t ht => by rw [hexec, ht, inState_next]
  cases i with
  | nop => exact ⟨_, rfl⟩
  | configure =>
    rcases execConfigure_cases s with ⟨_, _, hconf⟩ | ⟨_, hconf⟩ <;> exact ⟨_, hconf⟩
  | scan now => exact hgated (exec_scan rfl) fun hready => scanAt_completes h hready _
  | scanTick => exact hgated (exec_scan rfl) fun hready => scanAt_completes h hready _
  | nextKey =>
    exact hgated (exec_nextKey s)
      (takeAction_completes (fun _ _ => keyOutcome_completes_iff.trans resolve_completes_iff) h)
  | nextAction => exact hgated (exec_nextAction s) (takeAction_completes (fun _ _ => rawOutcome_completes_iff) h)
  | queueClear => exact hgated (exec_queueClear s) fun _ => ⟨_, rfl⟩

theorem runCommand_completes (h : s.Inv) : ∃ t : Block z, runCommand ⟨z, s⟩ = .next ⟨z, t⟩ := by
  rcases runCommand_cases s with ⟨_, _, hrun⟩ | ⟨i, _, hrun⟩ <;> rw [hrun]
  · exact ⟨_, rfl⟩
  · exact exec_completes h i

end Progress

/-- Settles O56: a reset and an idle cycle complete from any state, and a command from a legal one
(`runCommand_completes`). -/
theorem noStepStopsFromLegalState : Obligations.NoStepStopsFromLegalState := by
  rintro ⟨z, s⟩ h
  cases hrst : s.pins.rstN with
  | false => exact ⟨_, step_of_reset hrst⟩
  | true =>
    cases hvalid : s.pins.cmdValid with
    | false => exact ⟨_, step_of_idle hrst hvalid⟩
    | true =>
      obtain ⟨t, ht⟩ := runCommand_completes (inv_accept h.block)
      exact ⟨portsMoved ⟨z, t⟩, by rw [step_of_command hrst hvalid, ht, mapNext_next]⟩

/-! ## Runs (60_exceptions.md R210) -/

theorem runSteps_succ_of_step {s t : State} (h : step s = .next t) (n : Nat) :
    runSteps (n + 1) s = runSteps n t := by
  simp only [runSteps, h]

/-- Progress (O56) and the invariant (O55), step after step. -/
theorem runSteps_completes (n : Nat) {s : State} (h : s.Inv) :
    ∃ t, runSteps n s = some t ∧ t.Inv ∧ t.sizes = s.sizes := by
  induction n generalizing s with
  | zero => exact ⟨s, rfl, h, rfl⟩
  | succ n ih =>
    obtain ⟨u, hstep⟩ := noStepStopsFromLegalState s h
    obtain ⟨t, hrun, hinv, hsizes⟩ := ih (everyStepKeepsInvariant s u h hstep)
    exact ⟨t, (runSteps_succ_of_step hstep n).trans hrun, hinv, hsizes.trans (step_next_sizes hstep)⟩

/-- Settles O57: the inputs to come are not bound by the invariant, so the run starts from a legal state
(`runSteps_completes`). -/
theorem runsNeverStop : Obligations.RunsNeverStop :=
  fun _ _ n h => runSteps_completes n ⟨h.sizes, { h.block with }⟩

end Sys2Proof.Proofs

namespace Sys2Proof.Proofs

open Sys2Proof Sys2Proof.Machine Sys2Proof.Laws

/-! ## Power-on reset (70_reset_and_hazards.md R235) -/

section Ports

variable {z : Sizes} {s t : Block z}

/-- How the ports move on is read off the ports alone (log 4). -/
theorem advance_ports_congr (hpins : s.pins = t.pins) (hpending : s.pending = t.pending) :
    (advance s).pins = (advance t).pins ∧ (advance s).pending = (advance t).pending := by
  cases ht : t.pending with
  | nil => simp [advance, hpending, hpins, ht]
  | cons p ps => simp [advance, hpending, ht]

end Ports

/-- Settles O10: the step is `powerOnReset` and the ports moving on (`step_of_reset`). `advance` keeps the values the
reset gives, and the reset leaves the ports that `advance` reads (`advance_ports_congr`). -/
theorem stepResetsOnRstN : Obligations.StepResetsOnRstN := by
  intro z s hrst
  obtain ⟨hpins, hpending⟩ : (advance (powerOnReset (accept s))).pins = (advance s).pins ∧
      (advance (powerOnReset (accept s))).pending = (advance s).pending := advance_ports_congr rfl rfl
  exact ⟨_, step_of_reset hrst, advance_ready _, advance_cfgErr _, advance_latch _, advance_rowActive _,
    advance_shiftInd _, advance_rsp _, hpins, hpending⟩

end Sys2Proof.Proofs
